-- ==== Sys2Proof/Word.lean ====
section
/-! DEFINITION. The machine's word types: the widths of rule R5 and the operand fields of rule R92. -/

namespace Sys2Proof

/-- One byte of `MEM`, one general register, one timer (R5: `XLEN`, `TLEN`). -/
abbrev Byte := BitVec 8

/-- A 16-bit value: an instruction word, `pc`, `I` or a stack slot (R5: `ILEN`, `PCLEN`). -/
abbrev Word := BitVec 16

/-- The register fields `x` and `y` (R92): 4 bits, so that every one of the 16 registers can be named (R20). -/
abbrev RegNum := BitVec 4

/-- The address field `nnn` (R92): 12 bits. -/
abbrev Addr := BitVec 12

/-- The sprite height field `n` of draw (R92): 4 bits. -/
abbrev Height := BitVec 4

/-- The 16 key lines (R35, R206): bit `k` is key line `k`, 1 means down. -/
abbrev Keys := BitVec 16

/-- The framebuffer (R34): 32 rows of 64 one-bit cells, row 0 at the top, bit `col` of a row its cell in column `col`, 1 lit,
0 unlit. -/
abbrev Frame := Vector (BitVec 64) 32

/-- The linear index `row * 64 + col` of a framebuffer cell, 0 to 2047 (R34). -/
abbrev CellIndex := Fin 2048

/-- The flag register `VF = V[15]` (R23). -/
def VF : RegNum := 0xF

/-- `V0`, the implicit operand of jump-offset (R21). -/
def V0 : RegNum := 0x0

end Sys2Proof
end

