-- ==== Sys2Proof/Syntax.lean ====
section
/-! DEFINITION. The instructions: one constructor per row of the opcode map (rule R95), with the operand fields its
row names (rule R92), in the order of the fields in the word. -/

namespace Sys2Proof

/-- An instruction of the core. The docstrings give the row of R95, its pattern and its rule. -/
inductive Instr where
  /-- row 1, `00E0` clear-screen (R190) -/
  | clearScreen
  /-- row 2, `00EE` return (R140) -/
  | ret
  /-- row 3, `1nnn` jump (R141) -/
  | jump (nnn : Addr)
  /-- row 4, `2nnn` call (R142) -/
  | call (nnn : Addr)
  /-- row 5, `3xkk` skip-eq-imm (R143) -/
  | skipEqImm (x : RegNum) (kk : Byte)
  /-- row 6, `4xkk` skip-neq-imm (R144) -/
  | skipNeqImm (x : RegNum) (kk : Byte)
  /-- row 7, `5xy0` skip-eq-reg (R145); the low nibble is not examined (R97) -/
  | skipEqReg (x y : RegNum)
  /-- row 8, `6xkk` load-imm (R160) -/
  | loadImm (x : RegNum) (kk : Byte)
  /-- row 9, `7xkk` add-imm (R161) -/
  | addImm (x : RegNum) (kk : Byte)
  /-- row 10, `8xy0` assign (R162) -/
  | assign (x y : RegNum)
  /-- row 11, `8xy1` or (R163) -/
  | orReg (x y : RegNum)
  /-- row 12, `8xy2` and (R164) -/
  | andReg (x y : RegNum)
  /-- row 13, `8xy3` xor (R165) -/
  | xorReg (x y : RegNum)
  /-- row 14, `8xy4` add-with-carry (R166) -/
  | addWithCarry (x y : RegNum)
  /-- row 15, `8xy5` subtract-with-not-borrow (R167) -/
  | subNotBorrow (x y : RegNum)
  /-- row 16, `8xy6` shift-right-with-carry-out (R168); `y` is decoded and, with `SHIFT_SOURCE = Vx`, ignored -/
  | shiftRight (x y : RegNum)
  /-- row 17, `8xy7` subtract-reverse-with-not-borrow (R169) -/
  | subRevNotBorrow (x y : RegNum)
  /-- row 18, `8xyE` shift-left-with-carry-out (R170); `y` as for `shiftRight` -/
  | shiftLeft (x y : RegNum)
  /-- row 19, `9xy0` skip-neq-reg (R146); the low nibble is not examined (R97) -/
  | skipNeqReg (x y : RegNum)
  /-- row 20, `Annn` set-index (R180) -/
  | setIndex (nnn : Addr)
  /-- row 21, `Bnnn` jump-offset (R147) -/
  | jumpOffset (nnn : Addr)
  /-- row 22, `Cxkk` random (R171) -/
  | random (x : RegNum) (kk : Byte)
  /-- row 23, `Dxyn` draw (R191) -/
  | draw (x y : RegNum) (n : Height)
  /-- row 24, `Ex9E` skip-if-key-down (R200) -/
  | skipIfKeyDown (x : RegNum)
  /-- row 25, `ExA1` skip-if-key-up (R201) -/
  | skipIfKeyUp (x : RegNum)
  /-- row 26, `Fx07` load-delay (R203) -/
  | loadDelay (x : RegNum)
  /-- row 27, `Fx0A` wait-for-key (R202) -/
  | waitForKey (x : RegNum)
  /-- row 28, `Fx15` store-delay (R204) -/
  | storeDelay (x : RegNum)
  /-- row 29, `Fx18` store-sound (R205) -/
  | storeSound (x : RegNum)
  /-- row 30, `Fx1E` add-index (R181) -/
  | addIndex (x : RegNum)
  /-- row 31, `Fx29` load-font-addr (R182) -/
  | loadFontAddr (x : RegNum)
  /-- row 32, `Fx33` store-bcd (R183) -/
  | storeBcd (x : RegNum)
  /-- row 33, `Fx55` store-regs (R184) -/
  | storeRegs (x : RegNum)
  /-- row 34, `Fx65` load-regs (R185) -/
  | loadRegs (x : RegNum)
  /-- row 35, `0nnn` machine-routine, other than `00E0` and `00EE`: the opcode with no operation (R99, R126) -/
  | machineRoutine (nnn : Addr)
deriving DecidableEq, Repr

end Sys2Proof
end

