-- ==== Sys2Proof/WellFormed.lean ====
section
/-! DEFINITION. Which terms of `Instr` stand for a word. The field types already bound every operand; the one
overlap of the opcode map (rule R95: row 35 against rows 1 and 2) is checked here. -/

namespace Sys2Proof

/-- Row 35 is taken only if rows 1 and 2 do not match (R95): `0x0E0` and `0x0EE` are no machine routine. -/
def Instr.wellFormed : Instr → Bool
  | .machineRoutine nnn => nnn != 0x0E0 && nnn != 0x0EE
  | .clearScreen | .ret => true
  | .jump _ | .call _ | .setIndex _ | .jumpOffset _ => true
  | .skipEqImm _ _ | .skipNeqImm _ _ | .loadImm _ _ | .addImm _ _ | .random _ _ => true
  | .skipEqReg _ _ | .skipNeqReg _ _ | .assign _ _ | .orReg _ _ | .andReg _ _ | .xorReg _ _ => true
  | .addWithCarry _ _ | .subNotBorrow _ _ | .shiftRight _ _ | .subRevNotBorrow _ _ | .shiftLeft _ _ => true
  | .draw _ _ _ => true
  | .skipIfKeyDown _ | .skipIfKeyUp _ | .loadDelay _ | .waitForKey _ | .storeDelay _ | .storeSound _ => true
  | .addIndex _ | .loadFontAddr _ | .storeBcd _ | .storeRegs _ | .loadRegs _ => true

end Sys2Proof
end

