-- ==== Sys2Proof/Decode.lean ====
section
/-! DEFINITION. Decoding (rules R90 to R98), total on any word and on any bytes, rejecting by name; then the encoder,
written from the same opcode map (rule R95). -/

namespace Sys2Proof

/-- Why bytes are not an instruction. -/
inductive Reject where
  /-- Fewer than the 2 bytes of an instruction (R90). The core never sees this: a fetch reads 2 bytes or faults (R68). -/
  | truncated
  /-- The sub-selector of family `0x8`, `0xE` or `0xF` matches no operation (R98). What the core does with the word is
  R126: a report, not a stop. -/
  | unimplemented (w : Word)
deriving DecidableEq, Repr

/-! ### Fields (R92) -/

/-- `w[15:12]`, the family (R91). -/
def familyOf (w : Word) : BitVec 4 := w.extractLsb' 12 4
/-- `x = w[11:8]`. -/
def fieldX (w : Word) : RegNum := w.extractLsb' 8 4
/-- `y = w[7:4]`. -/
def fieldY (w : Word) : RegNum := w.extractLsb' 4 4
/-- `n = w[3:0]`, also the 4-bit sub-selector of family `0x8`. -/
def fieldN (w : Word) : Height := w.extractLsb' 0 4
/-- `kk = w[7:0]`, also the 8-bit sub-selector of families `0xE` and `0xF`. -/
def fieldKK (w : Word) : Byte := w.extractLsb' 0 8
/-- `nnn = w[11:0]`. -/
def fieldNNN (w : Word) : Addr := w.extractLsb' 0 12

/-! ### The two-level dispatch (R94) -/

/-- Family `0x0`, matched on the whole word (R97 b); every other word of it is row 35 (R99). -/
def decodeLiteral (w : Word) : Except Reject Instr :=
  if w = 0x00E0 then .ok .clearScreen
  else if w = 0x00EE then .ok .ret
  else .ok (.machineRoutine (fieldNNN w))

/-- Family `0x8`: the nine register-to-register operations by `w[3:0]`. -/
def decodeReg (w : Word) : Except Reject Instr :=
  let x := fieldX w
  let y := fieldY w
  let sub := fieldN w
  if sub = 0x0 then .ok (.assign x y)
  else if sub = 0x1 then .ok (.orReg x y)
  else if sub = 0x2 then .ok (.andReg x y)
  else if sub = 0x3 then .ok (.xorReg x y)
  else if sub = 0x4 then .ok (.addWithCarry x y)
  else if sub = 0x5 then .ok (.subNotBorrow x y)
  else if sub = 0x6 then .ok (.shiftRight x y)
  else if sub = 0x7 then .ok (.subRevNotBorrow x y)
  else if sub = 0xE then .ok (.shiftLeft x y)
  else .error (.unimplemented w)

/-- Family `0xE`: the two key skips by `w[7:0]`. -/
def decodeKey (w : Word) : Except Reject Instr :=
  if fieldKK w = 0x9E then .ok (.skipIfKeyDown (fieldX w))
  else if fieldKK w = 0xA1 then .ok (.skipIfKeyUp (fieldX w))
  else .error (.unimplemented w)

/-- Family `0xF`: nine operations by `w[7:0]`. -/
def decodeMisc (w : Word) : Except Reject Instr :=
  let x := fieldX w
  let sub := fieldKK w
  if sub = 0x07 then .ok (.loadDelay x)
  else if sub = 0x0A then .ok (.waitForKey x)
  else if sub = 0x15 then .ok (.storeDelay x)
  else if sub = 0x18 then .ok (.storeSound x)
  else if sub = 0x1E then .ok (.addIndex x)
  else if sub = 0x29 then .ok (.loadFontAddr x)
  else if sub = 0x33 then .ok (.storeBcd x)
  else if sub = 0x55 then .ok (.storeRegs x)
  else if sub = 0x65 then .ok (.loadRegs x)
  else .error (.unimplemented w)

/-- R94: branch on the family, then on the sub-selector of the four families that have one. It reads nothing but the
word (R123). -/
def decode (w : Word) : Except Reject Instr :=
  let f := familyOf w
  if f = 0x0 then decodeLiteral w
  else if f = 0x1 then .ok (.jump (fieldNNN w))
  else if f = 0x2 then .ok (.call (fieldNNN w))
  else if f = 0x3 then .ok (.skipEqImm (fieldX w) (fieldKK w))
  else if f = 0x4 then .ok (.skipNeqImm (fieldX w) (fieldKK w))
  else if f = 0x5 then .ok (.skipEqReg (fieldX w) (fieldY w))
  else if f = 0x6 then .ok (.loadImm (fieldX w) (fieldKK w))
  else if f = 0x7 then .ok (.addImm (fieldX w) (fieldKK w))
  else if f = 0x8 then decodeReg w
  else if f = 0x9 then .ok (.skipNeqReg (fieldX w) (fieldY w))
  else if f = 0xA then .ok (.setIndex (fieldNNN w))
  else if f = 0xB then .ok (.jumpOffset (fieldNNN w))
  else if f = 0xC then .ok (.random (fieldX w) (fieldKK w))
  else if f = 0xD then .ok (.draw (fieldX w) (fieldY w) (fieldN w))
  else if f = 0xE then decodeKey w
  else decodeMisc w

/-- Big-endian assembly of an instruction word (R60): the first byte is the high byte. -/
def wordOfBytes (hi lo : Byte) : Word := hi ++ lo

/-- The two bytes of a word as memory stores them, the lower address first (R60). -/
def bytesOfWord (w : Word) : List Byte := [w.extractLsb' 8 8, w.extractLsb' 0 8]

/-- Decoding of any bytes: the instruction and the bytes after it, or why there is none. -/
def decodeBytes : List Byte → Except Reject (Instr × List Byte)
  | hi :: lo :: rest =>
    match decode (wordOfBytes hi lo) with
    | .ok i => .ok (i, rest)
    | .error e => .error e
  | [_] => .error .truncated
  | [] => .error .truncated

/-! ### The encoder (R95) -/

/-- The word of an instruction, field by field from the patterns of R95. The unexamined nibble of `5xy0` and `9xy0` is
the canonical 0 (R97 a, R100). -/
def encode : Instr → Word
  | .clearScreen => 0x00E0
  | .ret => 0x00EE
  | .jump nnn => 0x1#4 ++ nnn
  | .call nnn => 0x2#4 ++ nnn
  | .skipEqImm x kk => 0x3#4 ++ x ++ kk
  | .skipNeqImm x kk => 0x4#4 ++ x ++ kk
  | .skipEqReg x y => 0x5#4 ++ x ++ y ++ 0x0#4
  | .loadImm x kk => 0x6#4 ++ x ++ kk
  | .addImm x kk => 0x7#4 ++ x ++ kk
  | .assign x y => 0x8#4 ++ x ++ y ++ 0x0#4
  | .orReg x y => 0x8#4 ++ x ++ y ++ 0x1#4
  | .andReg x y => 0x8#4 ++ x ++ y ++ 0x2#4
  | .xorReg x y => 0x8#4 ++ x ++ y ++ 0x3#4
  | .addWithCarry x y => 0x8#4 ++ x ++ y ++ 0x4#4
  | .subNotBorrow x y => 0x8#4 ++ x ++ y ++ 0x5#4
  | .shiftRight x y => 0x8#4 ++ x ++ y ++ 0x6#4
  | .subRevNotBorrow x y => 0x8#4 ++ x ++ y ++ 0x7#4
  | .shiftLeft x y => 0x8#4 ++ x ++ y ++ 0xE#4
  | .skipNeqReg x y => 0x9#4 ++ x ++ y ++ 0x0#4
  | .setIndex nnn => 0xA#4 ++ nnn
  | .jumpOffset nnn => 0xB#4 ++ nnn
  | .random x kk => 0xC#4 ++ x ++ kk
  | .draw x y n => 0xD#4 ++ x ++ y ++ n
  | .skipIfKeyDown x => 0xE#4 ++ x ++ 0x9E#8
  | .skipIfKeyUp x => 0xE#4 ++ x ++ 0xA1#8
  | .loadDelay x => 0xF#4 ++ x ++ 0x07#8
  | .waitForKey x => 0xF#4 ++ x ++ 0x0A#8
  | .storeDelay x => 0xF#4 ++ x ++ 0x15#8
  | .storeSound x => 0xF#4 ++ x ++ 0x18#8
  | .addIndex x => 0xF#4 ++ x ++ 0x1E#8
  | .loadFontAddr x => 0xF#4 ++ x ++ 0x29#8
  | .storeBcd x => 0xF#4 ++ x ++ 0x33#8
  | .storeRegs x => 0xF#4 ++ x ++ 0x55#8
  | .loadRegs x => 0xF#4 ++ x ++ 0x65#8
  | .machineRoutine nnn => 0x0#4 ++ nnn

/-- The bytes of an instruction in memory (R60, R90). -/
def encodeBytes (i : Instr) : List Byte := bytesOfWord (encode i)

/-! ### The opcode map as data (R95) -/

/-- A row of R95: `w` selects it iff `w and mask = pattern`. -/
structure OpcodeRow where
  row : Nat
  pattern : Word
  mask : Word
deriving DecidableEq, Repr

/-- Does the word match the row? -/
def OpcodeRow.matches (r : OpcodeRow) (w : Word) : Bool := w &&& r.mask == r.pattern

/-- The `match` and `mask` columns of R95, rows 1 to 23. -/
def opcodeRowsLow : List OpcodeRow :=
  [⟨1, 0x00E0, 0xFFFF⟩, ⟨2, 0x00EE, 0xFFFF⟩, ⟨3, 0x1000, 0xF000⟩, ⟨4, 0x2000, 0xF000⟩, ⟨5, 0x3000, 0xF000⟩,
   ⟨6, 0x4000, 0xF000⟩, ⟨7, 0x5000, 0xF000⟩, ⟨8, 0x6000, 0xF000⟩, ⟨9, 0x7000, 0xF000⟩, ⟨10, 0x8000, 0xF00F⟩,
   ⟨11, 0x8001, 0xF00F⟩, ⟨12, 0x8002, 0xF00F⟩, ⟨13, 0x8003, 0xF00F⟩, ⟨14, 0x8004, 0xF00F⟩, ⟨15, 0x8005, 0xF00F⟩,
   ⟨16, 0x8006, 0xF00F⟩, ⟨17, 0x8007, 0xF00F⟩, ⟨18, 0x800E, 0xF00F⟩, ⟨19, 0x9000, 0xF000⟩, ⟨20, 0xA000, 0xF000⟩,
   ⟨21, 0xB000, 0xF000⟩, ⟨22, 0xC000, 0xF000⟩, ⟨23, 0xD000, 0xF000⟩]

/-- The `match` and `mask` columns of R95, rows 24 to 35. -/
def opcodeRowsHigh : List OpcodeRow :=
  [⟨24, 0xE09E, 0xF0FF⟩, ⟨25, 0xE0A1, 0xF0FF⟩, ⟨26, 0xF007, 0xF0FF⟩, ⟨27, 0xF00A, 0xF0FF⟩, ⟨28, 0xF015, 0xF0FF⟩,
   ⟨29, 0xF018, 0xF0FF⟩, ⟨30, 0xF01E, 0xF0FF⟩, ⟨31, 0xF029, 0xF0FF⟩, ⟨32, 0xF033, 0xF0FF⟩, ⟨33, 0xF055, 0xF0FF⟩,
   ⟨34, 0xF065, 0xF0FF⟩, ⟨35, 0x0000, 0xF000⟩]

/-- The opcode map in the order of R95, so that row 35 is tried last. -/
def opcodeMap : List OpcodeRow := opcodeRowsLow ++ opcodeRowsHigh

/-- The row of the opcode map a word selects, if any. -/
def selectRow (w : Word) : Option Nat := (opcodeMap.find? (·.matches w)).map (·.row)

/-- The row of R95 an instruction stands for. -/
def Instr.row : Instr → Nat
  | .clearScreen => 1
  | .ret => 2
  | .jump _ => 3
  | .call _ => 4
  | .skipEqImm _ _ => 5
  | .skipNeqImm _ _ => 6
  | .skipEqReg _ _ => 7
  | .loadImm _ _ => 8
  | .addImm _ _ => 9
  | .assign _ _ => 10
  | .orReg _ _ => 11
  | .andReg _ _ => 12
  | .xorReg _ _ => 13
  | .addWithCarry _ _ => 14
  | .subNotBorrow _ _ => 15
  | .shiftRight _ _ => 16
  | .subRevNotBorrow _ _ => 17
  | .shiftLeft _ _ => 18
  | .skipNeqReg _ _ => 19
  | .setIndex _ => 20
  | .jumpOffset _ => 21
  | .random _ _ => 22
  | .draw _ _ _ => 23
  | .skipIfKeyDown _ => 24
  | .skipIfKeyUp _ => 25
  | .loadDelay _ => 26
  | .waitForKey _ => 27
  | .storeDelay _ => 28
  | .storeSound _ => 29
  | .addIndex _ => 30
  | .loadFontAddr _ => 31
  | .storeBcd _ => 32
  | .storeRegs _ => 33
  | .loadRegs _ => 34
  | .machineRoutine _ => 35

/-! ### The host's view of a table word -/

/-- An instruction word numbered as the opcode table numbers its bits: the bits above `nbits` are 0. -/
def tableWord (nbits w : Nat) : Word := BitVec.ofNat 16 (w % 2 ^ nbits)

/-- What the decoder reads from the bytes of a table word, laid out big-endian as memory stores them. -/
def decodeTableWord (nbits w : Nat) : Option Instr :=
  match decodeBytes (bytesOfWord (tableWord nbits w)) with
  | .ok (i, _) => some i
  | .error _ => none

end Sys2Proof
end

