-- ==== Sys2Proof/Config.lean ====
section
/-! DEFINITION. What one implementation fixes (the parameters of rule R6) and what the environment leaves free
(the driver's events, rules R13, R129 and R265). -/

namespace Sys2Proof

/-- `UNIMPL_POLICY` (R6, R126): what an unimplemented word does to `pc`. -/
inductive UnimplPolicy where
  /-- `pc` is unchanged. -/
  | hold
  /-- `pc` advances by 2. -/
  | skip
deriving DecidableEq, Repr

/-- `SHIFT_SOURCE` (R6, R168, R170): which register the two shifts read. -/
inductive ShiftSource where
  /-- `Vx` is shifted in place, `y` is ignored. -/
  | vx
  /-- `Vy` is shifted into `Vx`. -/
  | vy
deriving DecidableEq, Repr

/-- `FONT` (R6, R33): 16 glyphs of 5 bytes, glyph `d` for the hexadecimal digit `d`, top row first. -/
abbrev Font := Vector (Vector Byte 5) 16

/-- The font table of R33, digit by digit. -/
def standardFont : Font :=
  #v[ #v[0xF0, 0x90, 0x90, 0x90, 0xF0],   -- 0, at 0x050
      #v[0x20, 0x60, 0x20, 0x20, 0x70],   -- 1, at 0x055
      #v[0xF0, 0x10, 0xF0, 0x80, 0xF0],   -- 2, at 0x05A
      #v[0xF0, 0x10, 0xF0, 0x10, 0xF0],   -- 3, at 0x05F
      #v[0x90, 0x90, 0xF0, 0x10, 0x10],   -- 4, at 0x064
      #v[0xF0, 0x80, 0xF0, 0x10, 0xF0],   -- 5, at 0x069
      #v[0xF0, 0x80, 0xF0, 0x90, 0xF0],   -- 6, at 0x06E
      #v[0xF0, 0x10, 0x20, 0x40, 0x40],   -- 7, at 0x073
      #v[0xF0, 0x90, 0xF0, 0x90, 0xF0],   -- 8, at 0x078
      #v[0xF0, 0x90, 0xF0, 0x10, 0xF0],   -- 9, at 0x07D
      #v[0xF0, 0x90, 0xF0, 0x90, 0x90],   -- A, at 0x082
      #v[0xE0, 0x90, 0xE0, 0x90, 0xE0],   -- B, at 0x087
      #v[0xF0, 0x80, 0x80, 0x80, 0xF0],   -- C, at 0x08C
      #v[0xE0, 0x90, 0x90, 0x90, 0xE0],   -- D, at 0x091
      #v[0xF0, 0x80, 0xF0, 0x80, 0xF0],   -- E, at 0x096
      #v[0xF0, 0x80, 0xF0, 0x80, 0x80] ]  -- F, at 0x09B

/-- The named parameters of R6, each with the value this hardware takes as its default. `OOR_POLICY` has the one
value `fault` and `CYCLES_PER_TICK` belongs to the driver (a schedule of events), so neither is a field. -/
structure Config where
  /-- `UNIMPL_POLICY`. -/
  unimplPolicy : UnimplPolicy := .hold
  /-- `SHIFT_SOURCE`. -/
  shiftSource : ShiftSource := .vx
  /-- `LOGIC_WRITES_VF`: do assign, or, and, xor write 0 to `VF`? -/
  logicWritesVF : Bool := false
  /-- `MEMOP_INCREMENTS_I`: do store-regs and load-regs add `x + 1` to `I`? -/
  memopIncrementsI : Bool := false
  /-- `FONT`. -/
  font : Font := standardFont
deriving DecidableEq, Repr

/-- This hardware: every parameter at the value of R6. -/
def Config.hw : Config := {}

/-- `FONT_BASE` (R5): the address of the first glyph byte. -/
def Config.fontBase : Nat := 0x050

/-- `PROG_BASE` (R5): the load address and the reset value of `pc`. -/
def Config.progBase : Word := 0x200

/-- `PROG_MAX` (R5, R263): the largest program image, in bytes. -/
def Config.progMax : Nat := 3584

/-- The events the driver presents to the core, one at a time, each atomic (R13), and the load of a program image that
follows `RESET` (R263, R264). -/
inductive Event where
  /-- `RESET` (R260). -/
  | reset
  /-- The loader writes this image at `0x200` (R263). -/
  | load (image : List Byte)
  /-- `CYCLE(KEYS, RND)` (R120). -/
  | cycle (keys : Keys) (rnd : Byte)
  /-- `TICK` (R236). -/
  | tick
deriving DecidableEq, Repr, Inhabited

/-- The FREE driver (notes/assumptions/3.md): when no event is scheduled in the state, the `n`-th event the driver
chooses. It has no body, so nothing can be proved about its value: the key lines, the random byte (R171), the order of
`CYCLE` and `TICK` (R237) and a `RESET` are all the environment's choice. -/
opaque Config.freeEvent : Nat → Event

end Sys2Proof
end

