-- ==== Sys2Proof/Machine/State.lean ====
section
/-! DEFINITION. The state of the machine as plain data (10_state.md), the reasons a step can stop, and the state after
`RESET` (rule R36). -/

namespace Sys2Proof.Machine

/-- The fatal conditions of R220. `FAULT` holds one of them or none; they are states of the machine, not stops of the
model. -/
inductive FatalCode where
  /-- code 1: call with `SP = 16` -/
  | stackOverflow
  /-- code 2: return with `SP = 0` -/
  | stackUnderflow
  /-- code 3: a data access whose highest address exceeds `0xFFF` -/
  | memoryOutOfRange
  /-- code 4: a CYCLE with `pc >= 0xFFF` -/
  | fetchOutOfRange
  /-- code 5: a key skip with `V[x] > 15` -/
  | keyIndexOutOfRange
deriving DecidableEq, Repr

/-- The result a CYCLE returns to the driver (R128). -/
inductive CycleResult where
  /-- An operation executed and completed. -/
  | ok
  /-- wait-for-key with no key line down. -/
  | waiting
  /-- The unimplemented-opcode report: the word and its address. -/
  | unimplemented (w pc0 : Word)
  /-- This CYCLE raised a fatal fault: code, word and address. -/
  | fatal (code : FatalCode) (w pc0 : Word)
  /-- The core was already halted. -/
  | halted (code : FatalCode)
deriving DecidableEq, Repr

/-- Why the model stops with a fault. -/
inductive Fault where
  /-- Raised by the event `load`, by nothing else and by no instruction: the program image is longer than 3584 bytes,
  "fatal at load time, reported before any cycle executes" (R225, R263). Safe: the core is then never started. -/
  | imageTooLarge
deriving DecidableEq, Repr

/-- Why the model refuses. -/
inductive Refusal where
  /-- Raised by an arm of `exec` whose instruction has no meaning yet. Safe. No arm of this model raises it. -/
  | notModelled (mnemonic : String)
  /-- Raised by the event `load`, by nothing else and by no instruction: the driver loads a second image, or loads after
  the first CYCLE, against its contract (R263, R265; 93_implementation_defined.md U28: "refuse: outside the model").
  Safe. -/
  | loadOutsideWindow
deriving DecidableEq, Repr

/-- The state: first the spec's tuple (10_state.md, R37), then the model's own fields, which hold the inputs and outputs
of the driver's events (notes/assumptions/1.md to 5.md). -/
structure State where
  /-- `V[0..15]` (R20); `V[15]` is the flag `VF` (R23). -/
  v : Vector Byte 16
  /-- `I`, the index register (R27). -/
  idx : Word
  /-- `pc`, a byte address (R24). -/
  pc : Word
  /-- `SP`, the number of occupied stack slots, 0 to 16 (R28, R29). -/
  sp : Fin 17
  /-- `STACK[0..15]` (R28). -/
  stack : Vector Word 16
  /-- `DT`, the delay timer (R30). -/
  dt : Byte
  /-- `ST`, the sound timer (R30). -/
  st : Byte
  /-- `MEM` (R32): the bytes that differ from the reset contents, by rising address. -/
  mem : List Host.Cell
  /-- `FB`, 2048 one-bit cells (R34). -/
  fb : Frame
  /-- `FAULT` (R31): the latched fatal condition, none for code 0. -/
  fault : Option FatalCode
  /-- `FAULT_WORD` (R31). -/
  faultWord : Word
  /-- `FAULT_PC` (R31). -/
  faultPc : Word
  /-- Model's own: `KEYS`, the key lines presented with the latest CYCLE (R35). -/
  keys : Keys
  /-- Model's own: `RND`, the random byte presented with the latest CYCLE (R35). -/
  rnd : Byte
  /-- Model's own: the result of the latest CYCLE since `RESET` (R128). -/
  result : Option CycleResult
  /-- Model's own: true from `RESET` until the first load or CYCLE (R263). -/
  awaitingLoad : Bool
  /-- Model's own: the events the driver has scheduled, next first (R13, R265). -/
  pending : List Event
  /-- Model's own: how many free events have been drawn. -/
  freeIndex : Nat
deriving DecidableEq, Repr

/-- The state after `RESET` (R36, R260): every field of the spec's tuple at the value R36 gives, memory at its reset
contents (nothing listed), no event scheduled. -/
def State.reset : State where
  v := Vector.replicate 16 0
  idx := 0
  pc := Config.progBase
  sp := 0
  stack := Vector.replicate 16 0
  dt := 0
  st := 0
  mem := []
  fb := Vector.replicate 32 0
  fault := none
  faultWord := 0
  faultPc := 0
  keys := 0
  rnd := 0
  result := none
  awaitingLoad := true
  pending := []
  freeIndex := 0

/-- The outcome of one step or one instruction of this machine. -/
abbrev StepOutcome := Host.Outcome State Fault Refusal

end Sys2Proof.Machine
end

