-- ==== Sys2Proof/Machine/Ops.lean ====
section
/-! DEFINITION. The named operations over memory and state that every meaning is written with: the memory array
(20_memory.md), the accessors of each register, the call stack, the framebuffer cells, the program-counter discipline
(R125), fault entry (R226) beside the only way out of it (R229, R260), the unimplemented-opcode outcome (R126) and the
fetch (R122). -/

namespace Sys2Proof.Machine

/-! ### The memory array (R32, R69) -/

/-- `MEM` as data: the bytes that differ from the reset contents, addresses strictly rising. -/
abbrev Memory := List Host.Cell

/-- What an address nothing has written reads as: the reset contents of R36, the font of R33 in `0x050`-`0x09F`
(5 bytes a glyph) and 0 elsewhere. -/
def resetByte (a : Nat) : Byte :=
  if h : 0x050 ≤ a ∧ a < 0x0A0 then
    (Config.hw.font[(a - 0x050) / 5]'(by omega))[(a - 0x050) % 5]'(by omega)
  else 0

/-- The byte listed for an address, if one is. -/
def Memory.lookup : Memory → Nat → Option Byte
  | [], _ => none
  | (c, d) :: m, a => if a = c then some d else Memory.lookup m a

/-- `MEM[a]` (R10, R66: a read has no side effect). -/
def Memory.read (m : Memory) (a : Nat) : Byte := (Memory.lookup m a).getD (resetByte a)

/-- List a byte at its place. -/
def Memory.insert : Memory → Nat → Byte → Memory
  | [], a, b => [(a, b)]
  | (c, d) :: m, a, b =>
    if a < c then (a, b) :: (c, d) :: m
    else if a = c then (a, b) :: m
    else (c, d) :: Memory.insert m a b

/-- Unlist an address. -/
def Memory.erase (m : Memory) (a : Nat) : Memory := m.filter (fun c => c.1 != a)

/-- `MEM[a] <- b` (R10), keeping the canonical form: writing the byte an unlisted address reads as removes the entry. -/
def Memory.write (m : Memory) (a : Nat) (b : Byte) : Memory :=
  if b = resetByte a then Memory.erase m a else Memory.insert m a b

/-- Consecutive bytes from `a` upward. -/
def Memory.readBytes (m : Memory) (a n : Nat) : List Byte :=
  (List.range n).map (fun k => Memory.read m (a + k))

/-- Write consecutive bytes from `a` upward. -/
def Memory.writeBytes : Memory → Nat → List Byte → Memory
  | m, _, [] => m
  | m, a, b :: bs => Memory.writeBytes (Memory.write m a b) (a + 1) bs

/-- The canonical form from address `lo` on. -/
def Memory.wfFrom : Nat → Memory → Bool
  | _, [] => true
  | lo, (a, b) :: m => decide (lo ≤ a) && decide (a ≤ 0xFFF) && b != resetByte a && Memory.wfFrom (a + 1) m

/-- The canonical form: addresses of `MEM` only, strictly rising, no entry equal to what an unlisted address reads
as. -/
def Memory.wf (m : Memory) : Bool := Memory.wfFrom 0 m

/-! ### The range check of a data access (R67) -/

/-- Is every address of `base .. base + len - 1` an address of `MEM`? In integers, without wrap (R64); an access of no
byte is always in range (R67). -/
def accessInRange (base len : Nat) : Bool := len == 0 || decide (base + len - 1 ≤ 0xFFF)

namespace State

/-! ### Accessors: one home per register -/

/-- `V[x]` (R20). -/
def reg (s : State) (x : RegNum) : Byte := s.v[x.toNat]'(by have := x.isLt; omega)

/-- `V[x] <- b` (R20). No register is hard-wired. -/
def setReg (s : State) (x : RegNum) (b : Byte) : State :=
  { s with v := s.v.set x.toNat b (by have := x.isLt; omega) }

/-- `I <- w` (R27). -/
def setIdx (s : State) (w : Word) : State := { s with idx := w }

/-- `pc <- w` (R24). -/
def setPc (s : State) (w : Word) : State := { s with pc := w }

/-- `DT <- b` (R30). -/
def setDt (s : State) (b : Byte) : State := { s with dt := b }

/-- `ST <- b` (R30). -/
def setSt (s : State) (b : Byte) : State := { s with st := b }

/-- Replace the memory array. -/
def setMem (s : State) (m : Memory) : State := { s with mem := m }

/-- Replace the framebuffer. -/
def setFb (s : State) (f : Frame) : State := { s with fb := f }

/-- The result the CYCLE returns (R128). -/
def setResult (s : State) (r : CycleResult) : State := { s with result := some r }

/-- `MEM[a]` in a state. -/
def readByte (s : State) (a : Nat) : Byte := Memory.read s.mem a

/-- Registers `V[k]`, `V[k + 1]`, … `<-` the bytes, in ascending register order (R61, R185). -/
def setRegsFrom : State → Nat → List Byte → State
  | s, _, [] => s
  | s, k, b :: bs => setRegsFrom (s.setReg (BitVec.ofNat 4 k) b) (k + 1) bs

/-- `V[0] .. V[n - 1]` in ascending register order (R61, R184). -/
def regsUpTo (s : State) (n : Nat) : List Byte := (List.range n).map (fun k => s.reg (BitVec.ofNat 4 k))

/-- A checked load of `len` bytes at `base`: none iff the range check of R67 fails. -/
def loadBytes (s : State) (base len : Nat) : Option (List Byte) :=
  if accessInRange base len then some (Memory.readBytes s.mem base len) else none

/-- A checked store of bytes at `base`: none iff the range check of R67 fails, and then nothing is written (R227). -/
def storeBytes (s : State) (base : Nat) (bs : List Byte) : Option State :=
  if accessInRange base bs.length then some (s.setMem (Memory.writeBytes s.mem base bs)) else none

/-! ### The call stack (R28) -/

/-- Push: `STACK[SP] <- w`, `SP <- SP + 1`; none when all 16 slots are in use (R142). -/
def push (s : State) (w : Word) : Option State :=
  if h : s.sp.val < 16 then
    some { s with stack := s.stack.set s.sp.val w h, sp := ⟨s.sp.val + 1, by omega⟩ }
  else none

/-- Pop: `STACK[SP - 1]` and the state with `SP <- SP - 1`; none when the stack is empty (R140). The slot keeps its
content. -/
def pop (s : State) : Option (Word × State) :=
  if h : 0 < s.sp.val then
    some (s.stack[s.sp.val - 1]'(by have := s.sp.isLt; omega),
      { s with sp := ⟨s.sp.val - 1, by have := s.sp.isLt; omega⟩ })
  else none

/-! ### Ends of an instruction: the program-counter discipline (R125) and the results (R128) -/

/-- `pc <- target`, result `Ok`. -/
def goTo (s : State) (target : Word) : State := (s.setPc target).setResult .ok

/-- `pc <- pc0 + 2`, result `Ok`. -/
def advance (s : State) : State := s.goTo (s.pc + 2)

/-- `pc <- pc0 + 4` if the condition holds, else `pc0 + 2`; result `Ok`. -/
def skipIf (s : State) (c : Bool) : State := s.goTo (if c then s.pc + 4 else s.pc + 2)

/-- wait-for-key with no key down: nothing changes, result `Waiting` (R202). -/
def wait (s : State) : State := s.setResult .waiting

/-- FAULT ENTRY (R226): `FAULT`, `FAULT_WORD` and `FAULT_PC` are written, the result is `Fatal`, and nothing else
changes: `pc` stays at the instruction, nothing is saved elsewhere, control goes nowhere. -/
def raise (s : State) (code : FatalCode) (w : Word) : State :=
  { s with fault := some code, faultWord := w, faultPc := s.pc, result := some (.fatal code w s.pc) }

/-- The `RESET` event (R260), the one way out of the halted state (R229): every piece of the spec's state at its reset
value. The driver's own fields (its schedule, its last inputs) are not the core's and stay (notes/assumptions/13.md). -/
def resetEvent (s : State) : State :=
  { State.reset with keys := s.keys, rnd := s.rnd, pending := s.pending, freeIndex := s.freeIndex }

/-- The unimplemented-opcode outcome (R126): the report is the result, and no state changes but `pc` under the
alternative policy `skip`. -/
def unimplemented (s : State) (p : UnimplPolicy) (w : Word) : State :=
  match p with
  | .hold => s.setResult (.unimplemented w s.pc)
  | .skip => (s.setPc (s.pc + 2)).setResult (.unimplemented w s.pc)

/-- A CYCLE of a halted core (R121): nothing changes, result `Halted`. -/
def stayHalted (s : State) (code : FatalCode) : State := s.setResult (.halted code)

/-! ### Fetch (R60, R68, R122) -/

/-- The word at `pc`, big-endian; none iff `pc + 1 > 0xFFF`. An odd `pc` is legal (R63). -/
def fetch (s : State) : Option Word :=
  if s.pc.toNat + 1 > 0xFFF then none
  else some (wordOfBytes (s.readByte s.pc.toNat) (s.readByte (s.pc.toNat + 1)))

/-- Store an instruction word at `a` as memory holds it (R60). -/
def placeWord (s : State) (a : Nat) (w : Word) : State := s.setMem (Memory.writeBytes s.mem a (bytesOfWord w))

/-! ### The inputs of a CYCLE (R35, R120) -/

/-- The driver presents `KEYS` and `RND`; a CYCLE also ends the time in which an image may be loaded (R263). -/
def present (s : State) (keys : Keys) (rnd : Byte) : State :=
  { s with keys := keys, rnd := rnd, awaitingLoad := false }

end State

/-! ### Framebuffer cells (R10, R34) -/

/-- `row * 64 + col` (R34, R193), the position wrapped on both axes (R191). -/
def cellIndex (row col : Nat) : CellIndex := ⟨row % 32 * 64 + col % 64, by omega⟩

/-- `FbGet(i)` (R10). -/
def fbGet (f : Frame) (i : CellIndex) : Bool := (f[i.val / 64]'(by omega)).getLsbD (i.val % 64)

/-- A row of cells with one cell overwritten. -/
def setCell (r : BitVec 64) (col : Nat) (b : Bool) : BitVec 64 :=
  if b then r ||| BitVec.twoPow 64 col else r &&& ~~~(BitVec.twoPow 64 col)

/-- `FbSet(i, b)`: an overwrite of one cell (R10, R34). -/
def fbSet (f : Frame) (i : CellIndex) (b : Bool) : Frame :=
  f.set (i.val / 64) (setCell (f[i.val / 64]'(by omega)) (i.val % 64) b) (by omega)

/-- `FbClear()` (R10). -/
def fbClear : Frame := Vector.replicate 32 0

end Sys2Proof.Machine
end

