-- ==== Sys2Proof/Machine/Operands.lean ====
section
/-! DEFINITION. Every operand form of the instruction set (rules R92, R93, R186, R206): zero-extended fields, the implicit
`V0`, the effective address through `I`, the digits of store-bcd, the glyph address, the key lines and the shift
operand. Registers `Vx`, `Vy` are read by `State.reg`. -/

namespace Sys2Proof.Machine

/-- `nnn` as a `pc` or `I` value: zero-extended to 16 bits, an absolute byte address (R93). -/
def absAddr (nnn : Addr) : Word := nnn.setWidth 16

/-- The target of jump-offset: `nnn + V0`, not reduced to 12 bits (R147). -/
def offsetTarget (s : State) (nnn : Addr) : Word := absAddr nnn + (s.reg V0).setWidth 16

/-- The base of an access through `I`, as an integer (R64, R186): byte `k` of the access is at `indexBase s + k`. -/
def indexBase (s : State) : Nat := s.idx.toNat

/-- The glyph address of load-font-addr: `0x050 + 5 * Vx` in 16 bits, `Vx` unmasked (R182). -/
def glyphAddr (b : Byte) : Word := 0x050 + 5 * b.setWidth 16

/-- The decimal digits of a byte, hundreds, tens, ones (R183, R61). -/
def bcdDigits (b : Byte) : List Byte :=
  [BitVec.ofNat 8 (b.toNat / 100), BitVec.ofNat 8 (b.toNat / 10 % 10), BitVec.ofNat 8 (b.toNat % 10)]

/-- How many registers `V0..Vx` are (R184, R185). -/
def regCount (x : RegNum) : Nat := x.toNat + 1

/-- The operand of a shift: `Vx`, or `Vy` under the alternative `SHIFT_SOURCE = Vy` (R168, R170). -/
def shiftOperand (src : ShiftSource) (s : State) (x y : RegNum) : Byte :=
  match src with
  | .vx => s.reg x
  | .vy => s.reg y

/-- `Key(k)` (R206): line `k` of the `KEYS` of this CYCLE. -/
def keyDown (s : State) (k : Nat) : Bool := s.keys.getLsbD k

/-- The key a key skip tests: the value of `Vx`, none iff it exceeds 15 (R200, R201). -/
def keyIndex (b : Byte) : Option Nat := if b.toNat > 15 then none else some b.toNat

/-- `LowestKey()` (R206): the least key line that is down; none iff `AnyKey()` is false. -/
def lowestKey (s : State) : Option Nat := (List.range 16).find? (fun k => keyDown s k)

end Sys2Proof.Machine
end

