-- ==== Sys2Proof/Machine/Flags.lean ====
section
/-! DEFINITION. Every flag computation (rules R23, R172, R173). The one flag is `VF = V[15]`; a flag is computed from the
operands alone, before anything is written. -/

namespace Sys2Proof.Machine

/-- A flag as the byte `VF` holds: exactly 0 or 1 (R23). -/
def flagByte (f : Bool) : Byte := if f then 1 else 0

/-- Carry out of an addition: the sum exceeds 255 (R166, R172). -/
def carryOut (a b : Byte) : Bool := decide (a.toNat + b.toNat > 255)

/-- NOT borrow of `a - b`: 1 iff `a >= b` (R167, R172). -/
def notBorrow (a b : Byte) : Bool := decide (a.toNat ≥ b.toNat)

/-- The bit a right shift by one moves out: old bit 0 (R168). -/
def shiftedOutRight (a : Byte) : Bool := a.getLsbD 0

/-- The bit a left shift by one moves out: old bit 7 (R170). -/
def shiftedOutLeft (a : Byte) : Bool := a.getLsbD 7

/-- `V[15] <- f` (R23). -/
def State.setFlag (s : State) (f : Bool) : State := s.setReg VF (flagByte f)

/-- Steps 3 and 4 of R173: the result is written first, the flag second, so that with `x = 15` the flag remains. -/
def State.setRegFlag (s : State) (x : RegNum) (r : Byte) (f : Bool) : State := (s.setReg x r).setFlag f

/-- What assign, or, and, xor do to `VF` beside their result (R6 `LOGIC_WRITES_VF`, R23): nothing; under the alternative
they write 0. -/
def State.logicFlag (s : State) (writes : Bool) : State := if writes then s.setFlag false else s

/-- What store-regs and load-regs do to `I` (R6 `MEMOP_INCREMENTS_I`, R186): nothing; under the alternative they add the
number of registers moved. -/
def State.bumpIndex (s : State) (increments : Bool) (n : Nat) : State :=
  if increments then s.setIdx (s.idx + BitVec.ofNat 16 n) else s

end Sys2Proof.Machine
end

