-- ==== Sys2Proof/Machine/Alu.lean ====
section
/-! DEFINITION. Register arithmetic and logic (42_alu.md). Every instruction here ends with `pc <- pc0 + 2` and raises
nothing. Operands are read before any write (R11), 8-bit results wrap modulo 256 (R172). -/

namespace Sys2Proof.Machine

/-- R160 load-imm: `V[x] <- kk`. -/
def execLoadImm (x : RegNum) (kk : Byte) (s : State) : StepOutcome := .next (s.setReg x kk).advance

/-- R161 add-imm: `V[x] <- (V[x] + kk) mod 256`, no flag. -/
def execAddImm (x : RegNum) (kk : Byte) (s : State) : StepOutcome := .next (s.setReg x (s.reg x + kk)).advance

/-- The shape of assign, or, and, xor: the result to `Vx`, `VF` as `LOGIC_WRITES_VF` says. -/
def logicOp (x : RegNum) (r : Byte) (s : State) : StepOutcome :=
  .next ((s.setReg x r).logicFlag Config.hw.logicWritesVF).advance

/-- R162 assign: `V[x] <- V[y]`. -/
def execAssign (x y : RegNum) (s : State) : StepOutcome := logicOp x (s.reg y) s

/-- R163 or. -/
def execOrReg (x y : RegNum) (s : State) : StepOutcome := logicOp x (s.reg x ||| s.reg y) s

/-- R164 and. -/
def execAndReg (x y : RegNum) (s : State) : StepOutcome := logicOp x (s.reg x &&& s.reg y) s

/-- R165 xor. -/
def execXorReg (x y : RegNum) (s : State) : StepOutcome := logicOp x (s.reg x ^^^ s.reg y) s

/-- R166 add-with-carry: `V[x] <- (a + b) mod 256`, then `VF <- 1` iff `a + b > 255`. -/
def execAddWithCarry (x y : RegNum) (s : State) : StepOutcome :=
  let a := s.reg x
  let b := s.reg y
  .next (s.setRegFlag x (a + b) (carryOut a b)).advance

/-- R167 subtract-with-not-borrow: `V[x] <- (a - b) mod 256`, then `VF <- 1` iff `a >= b`. -/
def execSubNotBorrow (x y : RegNum) (s : State) : StepOutcome :=
  let a := s.reg x
  let b := s.reg y
  .next (s.setRegFlag x (a - b) (notBorrow a b)).advance

/-- R168 shift-right-with-carry-out: `V[x] <- a >> 1`, then `VF <- a and 1`. -/
def execShiftRight (x y : RegNum) (s : State) : StepOutcome :=
  let a := shiftOperand Config.hw.shiftSource s x y
  .next (s.setRegFlag x (a >>> 1) (shiftedOutRight a)).advance

/-- R169 subtract-reverse-with-not-borrow: `V[x] <- (b - a) mod 256`, then `VF <- 1` iff `b >= a`. -/
def execSubRevNotBorrow (x y : RegNum) (s : State) : StepOutcome :=
  let a := s.reg x
  let b := s.reg y
  .next (s.setRegFlag x (b - a) (notBorrow b a)).advance

/-- R170 shift-left-with-carry-out: `V[x] <- (a << 1) mod 256`, then `VF <- a >> 7`. -/
def execShiftLeft (x y : RegNum) (s : State) : StepOutcome :=
  let a := shiftOperand Config.hw.shiftSource s x y
  .next (s.setRegFlag x (a <<< 1) (shiftedOutLeft a)).advance

/-- R171 random: `V[x] <- RND and kk`, `RND` being the input of this CYCLE. -/
def execRandom (x : RegNum) (kk : Byte) (s : State) : StepOutcome := .next (s.setReg x (s.rnd &&& kk)).advance

end Sys2Proof.Machine
end

