-- ==== Sys2Proof/Machine/Control.lean ====
section
/-! DEFINITION. Control transfer (41_control_transfer.md) and the opcode with no operation (R99, R126). -/

namespace Sys2Proof.Machine

/-- R140 return: `pc <- STACK[SP - 1] + 2`, `SP <- SP - 1`; `StackUnderflow` when `SP = 0`. -/
def execRet (s : State) : StepOutcome :=
  match s.pop with
  | none => .next (s.raise .stackUnderflow (encode .ret))
  | some (a, t) => .next (t.goTo (a + 2))

/-- R141 jump: `pc <- nnn`. -/
def execJump (nnn : Addr) (s : State) : StepOutcome := .next (s.goTo (absAddr nnn))

/-- R142 call: push `pc0` itself, then `pc <- nnn`; `StackOverflow` when `SP = 16`. -/
def execCall (nnn : Addr) (s : State) : StepOutcome :=
  match s.push s.pc with
  | none => .next (s.raise .stackOverflow (encode (.call nnn)))
  | some t => .next (t.goTo (absAddr nnn))

/-- R143 skip-eq-imm. -/
def execSkipEqImm (x : RegNum) (kk : Byte) (s : State) : StepOutcome := .next (s.skipIf (s.reg x == kk))

/-- R144 skip-neq-imm. -/
def execSkipNeqImm (x : RegNum) (kk : Byte) (s : State) : StepOutcome := .next (s.skipIf (s.reg x != kk))

/-- R145 skip-eq-reg. -/
def execSkipEqReg (x y : RegNum) (s : State) : StepOutcome := .next (s.skipIf (s.reg x == s.reg y))

/-- R146 skip-neq-reg. -/
def execSkipNeqReg (x y : RegNum) (s : State) : StepOutcome := .next (s.skipIf (s.reg x != s.reg y))

/-- R147 jump-offset: `pc <- nnn + V0`, no further advance. -/
def execJumpOffset (nnn : Addr) (s : State) : StepOutcome := .next (s.goTo (offsetTarget s nnn))

/-- R126 for row 35: the machine routine has no operation, so the CYCLE reports it as unimplemented. -/
def execMachineRoutine (nnn : Addr) (s : State) : StepOutcome :=
  .next (s.unimplemented Config.hw.unimplPolicy (encode (.machineRoutine nnn)))

end Sys2Proof.Machine
end

