-- ==== Sys2Proof/Machine/Display.lean ====
section
/-! DEFINITION. The display operations (44_display.md): clear-screen, and draw with its collision detector. -/

namespace Sys2Proof.Machine

/-- A draw in progress: the framebuffer so far, and whether a cell has gone from lit to unlit (the `f` of R191). -/
structure Canvas where
  frame : Frame
  hit : Bool
deriving DecidableEq, Repr

/-- One sprite pixel (the loop body of R191): wrap the position on both axes, read the cell, note a collision, write the
XOR. -/
def plotPixel (cv : Canvas) (col row : Nat) (bit : Bool) : Canvas :=
  let i := cellIndex row col
  let old := fbGet cv.frame i
  { frame := fbSet cv.frame i (old ^^ bit), hit := cv.hit || (bit && old) }

/-- One sprite row: `c = 0` is bit 7, the leftmost pixel (R193). -/
def plotRow (cv : Canvas) (x0 row : Nat) (b : Byte) : Canvas :=
  (List.range 8).foldl (fun cv c => plotPixel cv (x0 + c) row (b.getLsbD (7 - c))) cv

/-- The rows of a sprite, top row first, from row `row` on. -/
def plotSprite : Canvas → Nat → Nat → List Byte → Canvas
  | cv, _, _, [] => cv
  | cv, x0, row, b :: bs => plotSprite (plotRow cv x0 row b) x0 (row + 1) bs

/-- The whole draw on a framebuffer: the start position is `(vx mod 64, vy mod 32)` and no collision has happened. -/
def drawSprite (f : Frame) (vx vy : Byte) (rows : List Byte) : Canvas :=
  plotSprite ⟨f, false⟩ (vx.toNat % 64) (vy.toNat % 32) rows

/-- R190 clear-screen. -/
def execClearScreen (s : State) : StepOutcome := .next (s.setFb fbClear).advance

/-- R191 draw: the `n` sprite bytes at `I` are XORed into the framebuffer, then `VF <- f`. With `n = 0` no byte is read,
so nothing can be out of range. -/
def execDraw (x y : RegNum) (n : Height) (s : State) : StepOutcome :=
  match s.loadBytes (indexBase s) n.toNat with
  | none => .next (s.raise .memoryOutOfRange (encode (.draw x y n)))
  | some rows =>
    let cv := drawSprite s.fb (s.reg x) (s.reg y) rows
    .next ((s.setFb cv.frame).setFlag cv.hit).advance

end Sys2Proof.Machine
end

