-- ==== Sys2Proof/Machine/Index.lean ====
section
/-! DEFINITION. The index register and memory operations (43_index_memory.md). The whole range of an access is checked
before anything is written (R67, R227). -/

namespace Sys2Proof.Machine

/-- R180 set-index: `I <- nnn`. -/
def execSetIndex (nnn : Addr) (s : State) : StepOutcome := .next (s.setIdx (absAddr nnn)).advance

/-- R181 add-index: `I <- (I + V[x]) mod 65536`, no flag. -/
def execAddIndex (x : RegNum) (s : State) : StepOutcome :=
  .next (s.setIdx (s.idx + (s.reg x).setWidth 16)).advance

/-- R182 load-font-addr: `I <- 0x050 + 5 * V[x]`. -/
def execLoadFontAddr (x : RegNum) (s : State) : StepOutcome := .next (s.setIdx (glyphAddr (s.reg x))).advance

/-- R183 store-bcd: the three digits of `V[x]` to `I`, `I + 1`, `I + 2`. -/
def execStoreBcd (x : RegNum) (s : State) : StepOutcome :=
  match s.storeBytes (indexBase s) (bcdDigits (s.reg x)) with
  | none => .next (s.raise .memoryOutOfRange (encode (.storeBcd x)))
  | some t => .next t.advance

/-- R184 store-regs: `MEM[I + k] <- V[k]` for `k = 0 .. x`. -/
def execStoreRegs (x : RegNum) (s : State) : StepOutcome :=
  match s.storeBytes (indexBase s) (s.regsUpTo (regCount x)) with
  | none => .next (s.raise .memoryOutOfRange (encode (.storeRegs x)))
  | some t => .next (t.bumpIndex Config.hw.memopIncrementsI (regCount x)).advance

/-- R185 load-regs: `V[k] <- MEM[I + k]` for `k = 0 .. x`. -/
def execLoadRegs (x : RegNum) (s : State) : StepOutcome :=
  match s.loadBytes (indexBase s) (regCount x) with
  | none => .next (s.raise .memoryOutOfRange (encode (.loadRegs x)))
  | some bs => .next ((s.setRegsFrom 0 bs).bumpIndex Config.hw.memopIncrementsI (regCount x)).advance

end Sys2Proof.Machine
end

