-- ==== Sys2Proof/Machine/KeysTimers.lean ====
section
/-! DEFINITION. Key and timer operations, and the key-wait blocking unit (45_keys_timers.md). -/

namespace Sys2Proof.Machine

/-- R200 skip-if-key-down: the register holds the key number; `KeyIndexOutOfRange` iff it exceeds 15. -/
def execSkipIfKeyDown (x : RegNum) (s : State) : StepOutcome :=
  match keyIndex (s.reg x) with
  | none => .next (s.raise .keyIndexOutOfRange (encode (.skipIfKeyDown x)))
  | some k => .next (s.skipIf (keyDown s k))

/-- R201 skip-if-key-up. -/
def execSkipIfKeyUp (x : RegNum) (s : State) : StepOutcome :=
  match keyIndex (s.reg x) with
  | none => .next (s.raise .keyIndexOutOfRange (encode (.skipIfKeyUp x)))
  | some k => .next (s.skipIf (!keyDown s k))

/-- R202 wait-for-key: with no key down nothing changes and the instruction is fetched again; else `V[x]` takes the
lowest key that is down. Level-sensitive, no stored state. -/
def execWaitForKey (x : RegNum) (s : State) : StepOutcome :=
  match lowestKey s with
  | none => .next s.wait
  | some k => .next (s.setReg x (BitVec.ofNat 8 k)).advance

/-- R203 load-delay: `V[x] <- DT`. -/
def execLoadDelay (x : RegNum) (s : State) : StepOutcome := .next (s.setReg x s.dt).advance

/-- R204 store-delay: `DT <- V[x]`. -/
def execStoreDelay (x : RegNum) (s : State) : StepOutcome := .next (s.setDt (s.reg x)).advance

/-- R205 store-sound: `ST <- V[x]`. -/
def execStoreSound (x : RegNum) (s : State) : StepOutcome := .next (s.setSt (s.reg x)).advance

end Sys2Proof.Machine
end

