-- ==== Sys2Proof/Machine/Events.lean ====
section
/-! DEFINITION. The driver's events: `CYCLE` (R120), `TICK` (R236), `RESET` (R260), the load of an image (R263), and the
choice of the next event (R13, R265). -/

namespace Sys2Proof.Machine

/-- `CYCLE(KEYS, RND)` (R120): the halted check (R121), the fetch (R68, R122), the decoding (R123) and the one operation
(R124), in the order of R228. -/
def cycle (keys : Keys) (rnd : Byte) (s0 : State) : StepOutcome :=
  let s := s0.present keys rnd
  match s.fault with
  | some code => .next (s.stayHalted code)
  | none =>
    match s.fetch with
    | none => .next (s.raise .fetchOutOfRange 0x0000)
    | some w =>
      match decode w with
      | .ok i => exec i s
      | .error _ => .next (s.unimplemented Config.hw.unimplPolicy w)

/-- One timer tick: down by one, floored at 0 (R236). -/
def countDown (b : Byte) : Byte := if b = 0 then 0 else b - 1

/-- `TICK` (R236): both timers count down, whether or not the core is halted or waiting; nothing else changes. -/
def tick (s : State) : State := { s with dt := countDown s.dt, st := countDown s.st }

/-- The loader (R263): an image of at most 3584 bytes is copied to `0x200` upward, once, after `RESET` and before the
first CYCLE. -/
def loadImage (image : List Byte) (s : State) : StepOutcome :=
  if !s.awaitingLoad then .refused .loadOutsideWindow
  else if image.length > Config.progMax then .fault .imageTooLarge
  else .next { s with mem := Memory.writeBytes s.mem Config.progBase.toNat image, awaitingLoad := false }

/-- One event of the driver (R13). -/
def runEvent (e : Event) (s : State) : StepOutcome :=
  match e with
  | .reset => .next s.resetEvent
  | .load image => loadImage image s
  | .cycle keys rnd => cycle keys rnd s
  | .tick => .next (tick s)

/-- The next event: the first scheduled one; with none scheduled, the driver's free choice. -/
def State.nextEvent (s : State) : Event :=
  match s.pending with
  | e :: _ => e
  | [] => Config.freeEvent s.freeIndex

/-- The state with that event taken. -/
def State.takeEvent (s : State) : State :=
  match s.pending with
  | _ :: rest => { s with pending := rest }
  | [] => { s with freeIndex := s.freeIndex + 1 }

/-- One iteration of a conforming driver (R265, R266): the same key lines for every CYCLE, one random byte for each, then
one `TICK`. The number of random bytes is `CYCLES_PER_TICK`, which the spec leaves open (R6, R237). -/
def iteration (keys : Keys) (rnds : List Byte) : List Event := rnds.map (.cycle keys ·) ++ [.tick]

/-- Make the next event a CYCLE with the inputs the state already holds, on a core that is not halted and whose `pc` can
be fetched from, and store the word there: all that a fetch of that word takes. -/
def State.prepareFetch (s : State) (w : Word) : State :=
  let s := match s.fault with
    | none => s
    | some _ => { s with fault := none, faultWord := 0, faultPc := 0 }
  let s := if s.pc.toNat + 1 > 0xFFF then s.setPc Config.progBase else s
  { s.placeWord s.pc.toNat w with pending := .cycle s.keys s.rnd :: s.pending }

end Sys2Proof.Machine
end

