-- ==== Sys2Proof/Machine/Step.lean ====
section
/-! DEFINITION. One step of the machine: the driver's next event, executed whole (R13, R65). -/

namespace Sys2Proof.Machine

/-- Take the next event and run it. -/
def step (s : State) : Host.Outcome State Fault Refusal := runEvent s.nextEvent s.takeEvent

/-- The state with an instruction word stored where the next step fetches, and that step a CYCLE. -/
def State.withFetchWord (s : State) (nbits w : Nat) : State := s.prepareFetch (tableWord nbits w)

end Sys2Proof.Machine
end

