-- ==== Sys2Proof/Safety.lean ====
section
/-! DEFINITION. What claims about a run are stated in: what an event leaves unchanged, the conditions a core can be in
(rules R202, R267), and the invariant every step keeps. -/

namespace Sys2Proof.Machine

/-! ### What is left unchanged -/

/-- Every general register but the listed ones holds the same byte. -/
def KeepsRegs (except : List RegNum) (s t : State) : Prop := ∀ r, r ∉ except → t.reg r = s.reg r

/-- `I` is unchanged. -/
def KeepsIdx (s t : State) : Prop := t.idx = s.idx

/-- `SP` and every slot of the call stack are unchanged. -/
def KeepsStack (s t : State) : Prop := t.sp = s.sp ∧ t.stack = s.stack

/-- `DT` and `ST` are unchanged. -/
def KeepsTimers (s t : State) : Prop := t.dt = s.dt ∧ t.st = s.st

/-- Every byte of memory reads as before. -/
def KeepsMem (s t : State) : Prop := ∀ a, t.readByte a = s.readByte a

/-- Every byte of memory outside `base .. base + len - 1` reads as before. -/
def KeepsMemOutside (base len : Nat) (s t : State) : Prop :=
  ∀ a, ¬(base ≤ a ∧ a < base + len) → t.readByte a = s.readByte a

/-- Every framebuffer cell is unchanged. -/
def KeepsDisplay (s t : State) : Prop := ∀ i, fbGet t.fb i = fbGet s.fb i

/-- `FAULT`, `FAULT_WORD` and `FAULT_PC` are unchanged. -/
def KeepsLatch (s t : State) : Prop := t.fault = s.fault ∧ t.faultWord = s.faultWord ∧ t.faultPc = s.faultPc

/-- The model's own fields that hold the driver's side are unchanged: the inputs of the CYCLE and the schedule. -/
def KeepsDriver (s t : State) : Prop :=
  t.keys = s.keys ∧ t.rnd = s.rnd ∧ t.awaitingLoad = s.awaitingLoad ∧ t.pending = s.pending ∧ t.freeIndex = s.freeIndex

/-- The frame of an instruction that writes no more than the listed registers, `pc` and the result. -/
def KeepsAllButRegs (except : List RegNum) (s t : State) : Prop :=
  KeepsRegs except s t ∧ KeepsIdx s t ∧ KeepsStack s t ∧ KeepsTimers s t ∧ KeepsMem s t ∧ KeepsDisplay s t ∧
    KeepsLatch s t ∧ KeepsDriver s t

/-- The spec's tuple (R37) is the same in two states: "no state changes". The model's own fields may differ. -/
def SameCore (s t : State) : Prop :=
  t.v = s.v ∧ t.idx = s.idx ∧ t.pc = s.pc ∧ t.sp = s.sp ∧ t.stack = s.stack ∧ t.dt = s.dt ∧ t.st = s.st ∧
    t.mem = s.mem ∧ t.fb = s.fb ∧ t.fault = s.fault ∧ t.faultWord = s.faultWord ∧ t.faultPc = s.faultPc

/-- Nothing of the spec's tuple changes but the fault latch, which takes these values (R127, R226). -/
def OnlyLatchSet (code : FatalCode) (w : Word) (s t : State) : Prop :=
  t.fault = some code ∧ t.faultWord = w ∧ t.faultPc = s.pc ∧ t.pc = s.pc ∧ t.result = some (.fatal code w s.pc) ∧
    KeepsRegs [] s t ∧ KeepsIdx s t ∧ KeepsStack s t ∧ KeepsTimers s t ∧ KeepsMem s t ∧ KeepsDisplay s t ∧
    KeepsDriver s t

/-! ### The number a latched fault has (R31, R220) -/

/-- The code of a fatal condition. -/
def FatalCode.number : FatalCode → BitVec 3
  | .stackOverflow => 1
  | .stackUnderflow => 2
  | .memoryOutOfRange => 3
  | .fetchOutOfRange => 4
  | .keyIndexOutOfRange => 5

/-- `FAULT` as the driver reads it: 3 bits, 0 when no fault has occurred. -/
def State.faultLatch (s : State) : BitVec 3 :=
  match s.fault with
  | none => 0
  | some c => c.number

/-- The "raised by" column of R220: the fatal condition an instruction can raise, if any. -/
def mayRaise : Instr → Option FatalCode
  | .call _ => some .stackOverflow
  | .ret => some .stackUnderflow
  | .draw _ _ _ | .storeBcd _ | .storeRegs _ | .loadRegs _ => some .memoryOutOfRange
  | .skipIfKeyDown _ | .skipIfKeyUp _ => some .keyIndexOutOfRange
  | .clearScreen | .jump _ | .skipEqImm _ _ | .skipNeqImm _ _ | .skipEqReg _ _ | .skipNeqReg _ _ | .jumpOffset _ => none
  | .loadImm _ _ | .addImm _ _ | .assign _ _ | .orReg _ _ | .andReg _ _ | .xorReg _ _ | .random _ _ => none
  | .addWithCarry _ _ | .subNotBorrow _ _ | .shiftRight _ _ | .subRevNotBorrow _ _ | .shiftLeft _ _ => none
  | .setIndex _ | .addIndex _ | .loadFontAddr _ => none
  | .loadDelay _ | .waitForKey _ | .storeDelay _ | .storeSound _ | .machineRoutine _ => none

/-- The "condition" column of R220: the fatal condition of an instruction holds at the start of the CYCLE. -/
def faultCondition (i : Instr) (s : State) : Prop :=
  match i with
  | .call _ => s.sp.val = 16
  | .ret => s.sp.val = 0
  | .draw _ _ n => 1 ≤ n.toNat ∧ s.idx.toNat + n.toNat - 1 > 0xFFF
  | .storeBcd _ => s.idx.toNat + 2 > 0xFFF
  | .storeRegs x => s.idx.toNat + x.toNat > 0xFFF
  | .loadRegs x => s.idx.toNat + x.toNat > 0xFFF
  | .skipIfKeyDown x => (s.reg x).toNat > 15
  | .skipIfKeyUp x => (s.reg x).toNat > 15
  | .clearScreen | .jump _ | .skipEqImm _ _ | .skipNeqImm _ _ | .skipEqReg _ _ | .skipNeqReg _ _ | .jumpOffset _ => False
  | .loadImm _ _ | .addImm _ _ | .assign _ _ | .orReg _ _ | .andReg _ _ | .xorReg _ _ | .random _ _ => False
  | .addWithCarry _ _ | .subNotBorrow _ _ | .shiftRight _ _ | .subRevNotBorrow _ _ | .shiftLeft _ _ => False
  | .setIndex _ | .addIndex _ | .loadFontAddr _ => False
  | .loadDelay _ | .waitForKey _ | .storeDelay _ | .storeSound _ | .machineRoutine _ => False

/-! ### What an instruction may write (R22, R25, R125) -/

/-- The "writes" column of R22. -/
def writesRegs : Instr → List RegNum
  | .loadImm x _ | .addImm x _ | .random x _ => [x]
  | .assign x _ | .orReg x _ | .andReg x _ | .xorReg x _ => [x]
  | .addWithCarry x _ | .subNotBorrow x _ | .shiftRight x _ | .subRevNotBorrow x _ | .shiftLeft x _ => [x, VF]
  | .draw _ _ _ => [VF]
  | .waitForKey x | .loadDelay x => [x]
  | .loadRegs x => (List.range (x.toNat + 1)).map (BitVec.ofNat 4)
  | .clearScreen | .ret | .jump _ | .call _ | .skipEqImm _ _ | .skipNeqImm _ _ | .skipEqReg _ _ | .skipNeqReg _ _ => []
  | .setIndex _ | .jumpOffset _ | .addIndex _ | .loadFontAddr _ | .storeBcd _ | .storeRegs _ => []
  | .skipIfKeyDown _ | .skipIfKeyUp _ | .storeDelay _ | .storeSound _ | .machineRoutine _ => []

/-- The table of R125: `pc` at the end of a CYCLE that raises no fault, from the state the operation reads. -/
def pcAfter (i : Instr) (s : State) : Word :=
  match i with
  | .jump nnn | .call nnn => nnn.setWidth 16
  | .jumpOffset nnn => nnn.setWidth 16 + (s.reg V0).setWidth 16
  | .ret => s.stack[s.sp.val - 1]'(by have := s.sp.isLt; omega) + 2
  | .skipEqImm x kk => if s.reg x = kk then s.pc + 4 else s.pc + 2
  | .skipNeqImm x kk => if s.reg x ≠ kk then s.pc + 4 else s.pc + 2
  | .skipEqReg x y => if s.reg x = s.reg y then s.pc + 4 else s.pc + 2
  | .skipNeqReg x y => if s.reg x ≠ s.reg y then s.pc + 4 else s.pc + 2
  | .skipIfKeyDown x => if s.keys.getLsbD (s.reg x).toNat = true then s.pc + 4 else s.pc + 2
  | .skipIfKeyUp x => if s.keys.getLsbD (s.reg x).toNat = false then s.pc + 4 else s.pc + 2
  | .waitForKey _ => if s.keys = 0 then s.pc else s.pc + 2
  | .machineRoutine _ => s.pc
  | .clearScreen | .loadImm _ _ | .addImm _ _ | .random _ _ | .draw _ _ _ => s.pc + 2
  | .assign _ _ | .orReg _ _ | .andReg _ _ | .xorReg _ _ => s.pc + 2
  | .addWithCarry _ _ | .subNotBorrow _ _ | .shiftRight _ _ | .subRevNotBorrow _ _ | .shiftLeft _ _ => s.pc + 2
  | .setIndex _ | .addIndex _ | .loadFontAddr _ | .storeBcd _ | .storeRegs _ | .loadRegs _ => s.pc + 2
  | .loadDelay _ | .storeDelay _ | .storeSound _ => s.pc + 2

/-- The bit of the sprite at `I` in row `r` (from the top) and column `c` (from the left), bit 7 leftmost (R193). -/
def spriteBit (s : State) (r c : Nat) : Bool := (s.readByte (s.idx.toNat + r)).getLsbD (7 - c)

/-- The cell that sprite pixel `(r, c)` of `draw x y` falls on, wrapped on both axes (R191). -/
def spriteCell (s : State) (x y : RegNum) (r c : Nat) : CellIndex :=
  cellIndex ((s.reg y).toNat % 32 + r) ((s.reg x).toNat % 64 + c)

/-! ### Conditions of a core (R202 d, R267) -/

/-- Halted: `FAULT != 0` (R14, R121). -/
def Halted (s : State) : Prop := s.fault ≠ none

/-- The instruction at `pc` of a core that is not halted. -/
def AtInstr (s : State) (i : Instr) : Prop := s.fault = none ∧ ∃ w, s.fetch = some w ∧ decode w = .ok i

/-- WAITING (R202 d), a condition of a state and an input: not halted, the word at `pc` is wait-for-key, no key down. -/
def Waiting (s : State) (keys : Keys) : Prop := keys = 0 ∧ ∃ x, AtInstr s (.waitForKey x)

/-- Held on a word with no operation (R126, R274). -/
def HeldOnUnimplemented (s : State) : Prop :=
  s.fault = none ∧ ∃ w, s.fetch = some w ∧
    ((∃ nnn, decode w = .ok (.machineRoutine nnn)) ∨ decode w = .error (.unimplemented w))

/-- The program has ended (R267): `FAULT = 0` and the word at `pc` is a jump to `pc`. -/
def ProgramEnded (s : State) : Prop := s.fault = none ∧ s.fetch = some (0x1000 + s.pc)

/-! ### The invariant -/

/-- What every step keeps: the canonical memory; the range of `pc` (R26: the largest value ever written is `0x10FE`); the
return addresses (R140: a live slot holds the address of a call, at most `0xFFE`); the latch (R31, R220, R226) clear
while running, and naming the faulting instruction and its cause while halted; and a core that awaits its image is as
`RESET` left it (R263). -/
structure CoreInv (s : State) : Prop where
  memCanonical : Memory.wf s.mem = true
  pcBound : s.pc.toNat ≤ 0x10FE
  liveSlots : ∀ k : Fin 16, k.val < s.sp.val → s.stack[k].toNat ≤ 0xFFE
  latchClear : s.fault = none → s.faultWord = 0 ∧ s.faultPc = 0
  latchPc : s.fault ≠ none → s.faultPc = s.pc
  latchFetch : s.fault = some .fetchOutOfRange → s.faultWord = 0 ∧ 0xFFF ≤ s.pc.toNat
  latchInstr : ∀ c, s.fault = some c → c ≠ .fetchOutOfRange →
    s.pc.toNat ≤ 0xFFE ∧ ∃ i, decode s.faultWord = .ok i ∧ mayRaise i = some c ∧ faultCondition i s
  freshBeforeLoad : s.awaitingLoad = true → SameCore State.reset s

end Sys2Proof.Machine
end

