-- ==== Sys2Proof/Certificates/Slice0/Obligations.lean ====
section
/-! DEFINITION. The statements for the provers, one definition each; OBLIGATIONS.json says which rule of spec/ each one
formalises. Frames are those of Sys2Proof/Safety.lean; a statement about a CYCLE is about the state `s.present keys rnd`,
which is `s` with the inputs of that CYCLE in place (notes/assumptions/2.md). -/

open Sys2Proof Sys2Proof.Machine

/-! ### Encoding -/

/-- Words written out from the patterns of R95 and the examples of the rules decode to what they stand for. Rests on
the spec's own decisions D7, D8, D9 (log 4). -/
def Obligations.SpecWordsDecode : Prop :=
  decode 0x00E0 = .ok .clearScreen ∧ decode 0x00EE = .ok .ret ∧ decode 0x1234 = .ok (.jump 0x234) ∧
  decode 0x3A05 = .ok (.skipEqImm 0xA 0x05) ∧ decode 0x5AB7 = .ok (.skipEqReg 0xA 0xB) ∧
  decode 0x8125 = .ok (.subNotBorrow 1 2) ∧ decode 0x810E = .ok (.shiftLeft 1 0) ∧ decode 0xA123 = .ok (.setIndex 0x123) ∧
  decode 0xD015 = .ok (.draw 0 1 5) ∧ decode 0xE5A1 = .ok (.skipIfKeyUp 5) ∧ decode 0xF30A = .ok (.waitForKey 3) ∧
  decode 0xF033 = .ok (.storeBcd 0) ∧ decode 0x01E0 = .ok (.machineRoutine 0x1E0) ∧
  decode 0x8128 = .error (.unimplemented 0x8128) ∧ decode 0xE19F = .error (.unimplemented 0xE19F) ∧
  decode 0xF1FF = .error (.unimplemented 0xF1FF)

/-- Decode and encode agree (R60, R90, R95): for EVERY well-formed instruction with every operand value. Rests on the
spec's own decisions D7, D9 (log 4). -/
def Obligations.DecodeEncodeRoundTrip : Prop :=
  ∀ i : Instr, i.wellFormed = true →
    decode (encode i) = .ok i ∧ (∀ rest, decodeBytes (encodeBytes i ++ rest) = .ok (i, rest)) ∧
      decodeTableWord 16 (encode i).toNat = some i ∧ selectRow (encode i) = some i.row

/-- The other direction: a decoded word is the encoding of its instruction but for the one nibble the decoder does not
examine (R97 a), and what the decoder gives is well-formed. Rests on the spec's own decisions D8, D9 (log 4). -/
def Obligations.DecodedWordIsItsEncoding : Prop :=
  ∀ (w : Word) (i : Instr), decode w = .ok i →
    i.wellFormed = true ∧
      encode i = if w.extractLsb' 12 4 = 0x5#4 ∨ w.extractLsb' 12 4 = 0x9#4 then w &&& 0xFFF0 else w

/-- The decoder and the match/mask columns of R95 select the same row for every word. Rests on the spec's own
decisions D7, D8, D9 (log 4). -/
def Obligations.DecoderFollowsOpcodeMap : Prop :=
  ∀ w : Word,
    (∀ i, decode w = .ok i → selectRow w = some i.row) ∧
    (∀ e, decode w = .error e → e = .unimplemented w ∧ selectRow w = none)

/-- The unimplemented words are exactly those of the table of R98, row 35 among them (R99). Rests on the spec's own
decisions D7, D8, D9 (log 4). -/
def Obligations.UnimplementedWordsAreThoseOfTheTable : Prop :=
  ∀ w : Word,
    ((∃ nnn, decode w = .ok (.machineRoutine nnn)) ∨ decode w = .error (.unimplemented w)) ↔
      (w.toNat / 4096 = 0x0 ∧ w ≠ 0x00E0 ∧ w ≠ 0x00EE) ∨
      (w.toNat / 4096 = 0x8 ∧ w.toNat % 16 ∈ [0x8, 0x9, 0xA, 0xB, 0xC, 0xD, 0xF]) ∨
      (w.toNat / 4096 = 0xE ∧ w.toNat % 256 ∉ [0x9E, 0xA1]) ∨
      (w.toNat / 4096 = 0xF ∧ w.toNat % 256 ∉ [0x07, 0x0A, 0x15, 0x18, 0x1E, 0x29, 0x33, 0x55, 0x65])

/-- R97: the bits a decoder does not examine, and those it does. Rests on the spec's own decisions D8, D10 (log 4). -/
def Obligations.BitsExaminedByTheDecoder : Prop :=
  (∀ (x y : RegNum) (n : BitVec 4), decode (0x5#4 ++ x ++ y ++ n) = .ok (.skipEqReg x y) ∧
    decode (0x9#4 ++ x ++ y ++ n) = .ok (.skipNeqReg x y)) ∧
  (∀ w : Word, (decode w = .ok .clearScreen ↔ w = 0x00E0) ∧ (decode w = .ok .ret ↔ w = 0x00EE)) ∧
  (∀ (x y z : RegNum) (s : State), decode (0x8#4 ++ x ++ y ++ 0x6#4) = .ok (.shiftRight x y) ∧
    decode (0x8#4 ++ x ++ y ++ 0xE#4) = .ok (.shiftLeft x y) ∧
    exec (.shiftRight x y) s = exec (.shiftRight x z) s ∧ exec (.shiftLeft x y) s = exec (.shiftLeft x z) s) ∧
  (∀ (x : RegNum) (k : Byte) (i : Instr), decode (0xE#4 ++ x ++ k) = .ok i ↔
    (k = 0x9E ∧ i = .skipIfKeyDown x) ∨ (k = 0xA1 ∧ i = .skipIfKeyUp x)) ∧
  (∀ (x : RegNum) (k : Byte) (i : Instr), decode (0xF#4 ++ x ++ k) = .ok i ↔
    (k = 0x07 ∧ i = .loadDelay x) ∨ (k = 0x0A ∧ i = .waitForKey x) ∨ (k = 0x15 ∧ i = .storeDelay x) ∨
    (k = 0x18 ∧ i = .storeSound x) ∨ (k = 0x1E ∧ i = .addIndex x) ∨ (k = 0x29 ∧ i = .loadFontAddr x) ∨
    (k = 0x33 ∧ i = .storeBcd x) ∨ (k = 0x55 ∧ i = .storeRegs x) ∨ (k = 0x65 ∧ i = .loadRegs x))

/-! ### The step, the events and the CYCLE -/

/-- R60: a fetch reads the two bytes at `pc`, odd or even, and the first one is the high byte. -/
def Obligations.FetchIsBigEndian : Prop :=
  ∀ s : State, s.pc.toNat ≤ 0xFFE → ∃ w, s.fetch = some w ∧
    w.toNat = (s.readByte s.pc.toNat).toNat * 256 + (s.readByte (s.pc.toNat + 1)).toNat ∧
    w.extractLsb' 8 8 = s.readByte s.pc.toNat ∧ w.extractLsb' 0 8 = s.readByte (s.pc.toNat + 1)

/-- A step whose event is a CYCLE runs the instruction the two bytes at `pc` decode to (R120, R122 to R124). Rests on
the spec's own decision D1 (log 4). -/
def Obligations.StepRunsDecodedInstruction : Prop :=
  ∀ (s : State) (keys : Keys) (rnd : Byte) (rest : List Event) (i : Instr),
    s.pending = .cycle keys rnd :: rest → s.fault = none → s.pc.toNat ≤ 0xFFE →
    decodeBytes [s.readByte s.pc.toNat, s.readByte (s.pc.toNat + 1)] = .ok (i, []) →
    step s = exec i { s with pending := rest, keys := keys, rnd := rnd, awaitingLoad := false }

/-- A step takes one event: the first scheduled one, or, with none scheduled, the driver's free choice (R13, R265; the
schedule in the state is the model's choice, notes/assumptions/3.md). Rests on the spec's own decisions D1, D26 (log
4). -/
def Obligations.StepTakesOneEvent : Prop :=
  ∀ s : State,
    (∀ keys rnd rest, s.pending = .cycle keys rnd :: rest → step s = cycle keys rnd { s with pending := rest }) ∧
    (∀ rest, s.pending = .tick :: rest → step s = .next (tick { s with pending := rest })) ∧
    (∀ rest, s.pending = .reset :: rest →
      step s = .next { State.reset with keys := s.keys, rnd := s.rnd, pending := rest, freeIndex := s.freeIndex }) ∧
    (∀ image rest, s.pending = .load image :: rest → step s = loadImage image { s with pending := rest }) ∧
    (s.pending = [] →
      step s = runEvent (Config.freeEvent s.freeIndex) { s with freeIndex := s.freeIndex + 1 })

/-- R121: a halted core changes nothing in a CYCLE, and only `RESET` ends the halted state. Rests on the spec's own
decision D2 (log 4). -/
def Obligations.HaltedCoreStaysHalted : Prop :=
  ∀ (s : State) (code : FatalCode), s.fault = some code →
    (∀ keys rnd, ∃ t, cycle keys rnd s = .next t ∧ SameCore s t ∧ t.result = some (.halted code)) ∧
    (∀ e t, runEvent e s = .next t → e ≠ .reset → t.fault = some code) ∧
    (∃ t, runEvent .reset s = .next t ∧ t.fault = none)

/-- R68: a CYCLE with `pc >= 0xFFF` raises `FetchOutOfRange`, code 4, with `FAULT_WORD = 0x0000`; nothing else
changes. Rests on the spec's own decision D4 (log 4). -/
def Obligations.FetchBeyondMemoryFaults : Prop :=
  ∀ (s : State) (keys : Keys) (rnd : Byte), s.fault = none → 0xFFF ≤ s.pc.toNat →
    ∃ t, cycle keys rnd s = .next t ∧ OnlyLatchSet .fetchOutOfRange 0x0000 (s.present keys rnd) t ∧ t.faultLatch = 4

/-- R126: an unimplemented word is reported, changes no state, is reported again by every later CYCLE and held through
every `TICK`, and under the alternative policy differs in `pc` only. Rests on the spec's own decisions D6, D7 (log 4).
-/
def Obligations.UnimplementedWordIsReportedAndHeld : Prop :=
  (∀ (s : State) (w : Word), s.fault = none → s.fetch = some w →
    ((∃ nnn, decode w = .ok (.machineRoutine nnn)) ∨ decode w = .error (.unimplemented w)) →
    (∀ keys rnd, ∃ t, cycle keys rnd s = .next t ∧ SameCore s t ∧ t.result = some (.unimplemented w s.pc) ∧
      ∀ keys' rnd', ∃ u, cycle keys' rnd' t = .next u ∧ SameCore s u ∧ u.result = some (.unimplemented w s.pc)) ∧
    (tick s).fault = none ∧ (tick s).fetch = some w ∧ (tick s).pc = s.pc) ∧
  (∀ (s : State) (w : Word),
    s.unimplemented .skip w = { s.unimplemented .hold w with pc := s.pc + 2 } ∧ Config.hw.unimplPolicy = .hold)

/-- R128: a CYCLE always ends with one of the five results, each under its condition and with its state change. Rests
on the spec's own decisions D1, D2 (log 4). -/
def Obligations.CycleEndsWithOneOfFiveResults : Prop :=
  ∀ (s : State) (keys : Keys) (rnd : Byte), ∃ t r, cycle keys rnd s = .next t ∧ t.result = some r ∧
    match r with
    | .ok => ∃ i, AtInstr s i ∧ exec i (s.present keys rnd) = .next t
    | .waiting => Waiting s keys ∧ SameCore s t
    | .unimplemented w p => HeldOnUnimplemented s ∧ s.fetch = some w ∧ p = s.pc ∧ SameCore s t
    | .fatal c w p => s.fault = none ∧ p = s.pc ∧ OnlyLatchSet c w (s.present keys rnd) t
    | .halted c => s.fault = some c ∧ SameCore s t

/-- R129: the result and the next state of a CYCLE are a function of the state before it and of `KEYS` and `RND`: the
model's own fields (schedule, earlier inputs, earlier result) have no influence on the spec's tuple. The spec marks it
as derived. -/
def Obligations.CycleDependsOnCoreAndInputsOnly : Prop :=
  ∀ (s s' t : State) (keys : Keys) (rnd : Byte), SameCore s s' → cycle keys rnd s = .next t →
    ∃ t', cycle keys rnd s' = .next t' ∧ SameCore t t' ∧ t'.result = t.result

/-- No instruction stops the model: every instruction of every form ends in a next state, in every state. -/
def Obligations.EveryInstructionCompletes : Prop := ∀ (i : Instr) (s : State), ∃ t, exec i s = .next t

/-- R125: `pc` at the end of a CYCLE, for every operation, for a faulting one and for a word with no operation; within
memory `+ 2` and `+ 4` do not wrap (R125 marks this clause as derived). Rests on the spec's own decisions D2, D6, D17 (log 4). -/
def Obligations.ProgramCounterDiscipline : Prop :=
  (∀ (i : Instr) (s t : State), exec i s = .next t →
    (t.result = some .ok ∨ t.result = some .waiting ∨ ∃ w p, t.result = some (.unimplemented w p)) ∧
      t.pc = pcAfter i s ∨
    (∃ c w, t.result = some (.fatal c w s.pc)) ∧ t.pc = s.pc) ∧
  (∀ (s t : State) (keys : Keys) (rnd : Byte) (w : Word), s.fault = none → s.fetch = some w →
    decode w = .error (.unimplemented w) → cycle keys rnd s = .next t → t.pc = s.pc) ∧
  (∀ s : State, s.pc.toNat ≤ 0xFFE → (s.pc + 2).toNat = s.pc.toNat + 2 ∧ (s.pc + 4).toNat = s.pc.toNat + 4)

/-- The "writes" column of R22, for every instruction: every other general register keeps its byte. Rests on the
spec's own decisions D11, D12 (log 4). -/
def Obligations.RegistersWrittenAsListed : Prop :=
  ∀ (i : Instr) (s t : State), exec i s = .next t → KeepsRegs (writesRegs i) s t

/-- Every piece of state that is not a general register is written by the instructions its rule names and by no other
(R27, R28, R30, R31, R34, R64, R124). Rests on the spec's own decision D2 (log 4). -/
def Obligations.StateWrittenOnlyByItsInstructions : Prop :=
  ∀ (i : Instr) (s t : State), exec i s = .next t →
    (KeepsIdx s t ∨ (∃ nnn, i = .setIndex nnn) ∨ (∃ x, i = .addIndex x) ∨ ∃ x, i = .loadFontAddr x) ∧
    (KeepsStack s t ∨ (∃ nnn, i = .call nnn) ∨ i = .ret) ∧
    (t.dt = s.dt ∨ ∃ x, i = .storeDelay x) ∧ (t.st = s.st ∨ ∃ x, i = .storeSound x) ∧
    (KeepsMem s t ∨ (∃ x, i = .storeBcd x ∧ KeepsMemOutside s.idx.toNat 3 s t) ∨
      ∃ x, i = .storeRegs x ∧ KeepsMemOutside s.idx.toNat (x.toNat + 1) s t) ∧
    (KeepsDisplay s t ∨ i = .clearScreen ∨ ∃ x y n, i = .draw x y n) ∧
    (KeepsLatch s t ∨ ∃ c w p, t.result = some (.fatal c w p)) ∧ KeepsDriver s t

/-! ### Faults -/

/-- R220, R226: the fault table and fault entry, at the level of the CYCLE: an instruction whose condition holds
latches its code, the fetched word and its address, and nothing else changes; one whose condition does not hold
latches nothing. Rests on the spec's own decisions D2, D4, D5 (log 4). -/
def Obligations.FaultTableAndEntry : Prop :=
  ∀ (s : State) (keys : Keys) (rnd : Byte),
    (s.fault = none → 0xFFF ≤ s.pc.toNat →
      ∃ t, cycle keys rnd s = .next t ∧ OnlyLatchSet .fetchOutOfRange 0x0000 (s.present keys rnd) t) ∧
    (∀ w i, s.fault = none → s.fetch = some w → decode w = .ok i →
      (faultCondition i s → ∃ t c, cycle keys rnd s = .next t ∧ mayRaise i = some c ∧
        OnlyLatchSet c w (s.present keys rnd) t ∧ t.faultLatch = c.number) ∧
      (¬ faultCondition i s → ∃ t, cycle keys rnd s = .next t ∧ KeepsLatch s t ∧ t.faultLatch = 0)) ∧
    FatalCode.number .stackOverflow = 1 ∧ FatalCode.number .stackUnderflow = 2 ∧
    FatalCode.number .memoryOutOfRange = 3 ∧ FatalCode.number .fetchOutOfRange = 4 ∧
    FatalCode.number .keyIndexOutOfRange = 5 ∧ (s.faultLatch = 0 ↔ s.fault = none) ∧ s.faultLatch ≠ 6 ∧ s.faultLatch ≠ 7

/-- R227: faults are precise. An instruction faults exactly when its condition holds at the start, and then it has no
partial effect. Rests on the spec's own decision D3 (log 4). -/
def Obligations.FaultsArePrecise : Prop :=
  ∀ (i : Instr) (s : State), ∃ t, exec i s = .next t ∧
    (faultCondition i s → ∃ c, mayRaise i = some c ∧ OnlyLatchSet c (encode i) s t) ∧
    (¬ faultCondition i s → KeepsLatch s t ∧ ∀ c w p, t.result ≠ some (.fatal c w p))

/-! ### RESET, TICK, the load -/

/-- R36: the state after `RESET`, field by field, from any state; `RESET` has no result (R260). Rests on the spec's
own decisions D22, D23 (log 4). -/
def Obligations.ResetGivesTheListedValues : Prop :=
  ∀ s : State, ∃ t, runEvent .reset s = .next t ∧ SameCore State.reset t ∧ t.result = none ∧
    (∀ x, t.reg x = 0) ∧ t.pc = 0x200 ∧ t.idx = 0 ∧ t.sp.val = 0 ∧ (∀ k : Fin 16, t.stack[k] = 0) ∧ t.dt = 0 ∧ t.st = 0 ∧
    (∀ (d : Fin 16) (k : Fin 5), t.readByte (0x050 + 5 * d.val + k.val) = standardFont[d][k]) ∧
    (∀ a, a < 0x050 ∨ (0x0A0 ≤ a ∧ a ≤ 0xFFF) → t.readByte a = 0) ∧ (∀ i, fbGet t.fb i = false) ∧
    t.faultLatch = 0 ∧ t.faultWord = 0 ∧ t.faultPc = 0

/-- R236: `TICK` takes each nonzero timer down by one, floors at 0, works in every state, and changes nothing else.
Rests on the spec's own decision D25 (log 4). -/
def Obligations.TickCountsTimersDown : Prop :=
  ∀ s : State, ∃ t, runEvent .tick s = .next t ∧ t.dt.toNat = s.dt.toNat - 1 ∧ t.st.toNat = s.st.toNat - 1 ∧
    t = { s with dt := t.dt, st := t.st }

/-- R263: a legal load puts the image at `0x200` and changes no other byte; an image of more than 3584 bytes is fatal at
load time; a load outside its window is refused (the refusal is the model's choice, notes/assumptions/5.md). -/
def Obligations.LoadPlacesTheImage : Prop :=
  ∀ (image : List Byte) (s : State),
    (s.awaitingLoad = true → image.length ≤ 3584 →
      ∃ t, runEvent (.load image) s = .next t ∧
        (∀ (k : Nat) (h : k < image.length), t.readByte (0x200 + k) = image[k]) ∧
        KeepsMemOutside 0x200 image.length s t ∧ t = { s with mem := t.mem, awaitingLoad := false }) ∧
    (s.awaitingLoad = true → image.length > 3584 → runEvent (.load image) s = .fault .imageTooLarge) ∧
    (s.awaitingLoad = false → runEvent (.load image) s = .refused .loadOutsideWindow)

/-- R237: between two writes by store-delay (and without a `RESET`), no event raises `DT`. Rests on the spec's own
decision D26 (log 4). -/
def Obligations.DelayTimerNeverIncreases : Prop :=
  ∀ (e : Event) (s t : State), runEvent e s = .next t → e ≠ .reset →
    (∀ keys rnd x, e = .cycle keys rnd → ¬ AtInstr s (.storeDelay x)) → t.dt.toNat ≤ s.dt.toNat

/-! ### The invariant -/

/-- The invariant holds after `RESET`. Rests on the spec's own decision D23 (log 4). -/
def Obligations.InvariantAtReset : Prop := CoreInv State.reset

/-- Every step keeps the invariant: canonical memory, the range of `pc`, the return addresses, the fault latch and its
cause, and a fresh core before the load. Rests on the spec's own decision D2 (log 4). -/
def Obligations.StepKeepsInvariant : Prop := ∀ s t : State, CoreInv s → step s = .next t → CoreInv t

/-! ### Control transfer -/

/-- R140 return. -/
def Obligations.ReturnPopsTheCallersAddress : Prop :=
  decode 0x00EE = .ok .ret ∧
  ∀ s : State,
    (s.sp.val = 0 → ∃ t, exec .ret s = .next t ∧ OnlyLatchSet .stackUnderflow 0x00EE s t) ∧
    (0 < s.sp.val → ∃ t, exec .ret s = .next t ∧
      t.pc = s.stack[s.sp.val - 1]'(by have := s.sp.isLt; omega) + 2 ∧ t.sp.val = s.sp.val - 1 ∧ t.stack = s.stack ∧
      t.result = some .ok ∧ (CoreInv s → t.pc.toNat ≤ 0x1000) ∧
      KeepsRegs [] s t ∧ KeepsIdx s t ∧ KeepsTimers s t ∧ KeepsMem s t ∧ KeepsDisplay s t ∧ KeepsLatch s t ∧
      KeepsDriver s t)

/-- R141 jump: a jump to its own address changes nothing, and after a jump to `0xFFF` the next CYCLE cannot fetch. -/
def Obligations.JumpSetsTheProgramCounter : Prop :=
  ∀ (nnn : Addr), decode (0x1#4 ++ nnn) = .ok (.jump nnn) ∧
  ∀ s : State, ∃ t, exec (.jump nnn) s = .next t ∧ t.pc.toNat = nnn.toNat ∧ t.result = some .ok ∧
    KeepsAllButRegs [] s t ∧ (s.pc.toNat = nnn.toNat → SameCore s t) ∧
    (nnn = 0xFFF → s.fault = none → ∀ keys rnd, ∃ u, cycle keys rnd t = .next u ∧
      OnlyLatchSet .fetchOutOfRange 0x0000 (t.present keys rnd) u)

/-- R142 call: the address of the call itself is pushed; the seventeenth level faults; and, whatever the subroutine did, a
return that finds the stack as the call left it restores the pre-call `pc`, advanced by 2, and `SP`. -/
def Obligations.CallPushesItsOwnAddress : Prop :=
  ∀ (nnn : Addr), decode (0x2#4 ++ nnn) = .ok (.call nnn) ∧
  ∀ s : State,
    (s.sp.val = 16 → ∃ t, exec (.call nnn) s = .next t ∧ OnlyLatchSet .stackOverflow (0x2#4 ++ nnn) s t) ∧
    (∀ h : s.sp.val < 16, ∃ t, exec (.call nnn) s = .next t ∧ t.pc.toNat = nnn.toNat ∧ t.sp.val = s.sp.val + 1 ∧
      t.stack[s.sp.val] = s.pc ∧ (∀ k : Fin 16, k.val ≠ s.sp.val → t.stack[k] = s.stack[k]) ∧ t.result = some .ok ∧
      KeepsRegs [] s t ∧ KeepsIdx s t ∧ KeepsTimers s t ∧ KeepsMem s t ∧ KeepsDisplay s t ∧ KeepsLatch s t ∧
      KeepsDriver s t ∧
      ∀ t', KeepsStack t t' → ∃ u, exec .ret t' = .next u ∧ u.pc = s.pc + 2 ∧ u.sp = s.sp ∧ u.result = some .ok)

/-- R143, R144: the skips against an immediate. -/
def Obligations.SkipsAgainstAnImmediate : Prop :=
  ∀ (x : RegNum) (kk : Byte),
    decode (0x3#4 ++ x ++ kk) = .ok (.skipEqImm x kk) ∧ decode (0x4#4 ++ x ++ kk) = .ok (.skipNeqImm x kk) ∧
  ∀ s : State,
    (∃ t, exec (.skipEqImm x kk) s = .next t ∧ t.pc = (if s.reg x = kk then s.pc + 4 else s.pc + 2) ∧
      t.result = some .ok ∧ KeepsAllButRegs [] s t) ∧
    (∃ t, exec (.skipNeqImm x kk) s = .next t ∧ t.pc = (if s.reg x = kk then s.pc + 2 else s.pc + 4) ∧
      t.result = some .ok ∧ KeepsAllButRegs [] s t)

/-- R145, R146: the skips between registers; the low nibble of the word is not examined. Rests on the spec's own
decision D8 (log 4). -/
def Obligations.SkipsBetweenRegisters : Prop :=
  ∀ (x y : RegNum) (n : BitVec 4),
    decode (0x5#4 ++ x ++ y ++ n) = .ok (.skipEqReg x y) ∧ decode (0x9#4 ++ x ++ y ++ n) = .ok (.skipNeqReg x y) ∧
  ∀ s : State,
    (∃ t, exec (.skipEqReg x y) s = .next t ∧ t.pc = (if s.reg x = s.reg y then s.pc + 4 else s.pc + 2) ∧
      t.result = some .ok ∧ KeepsAllButRegs [] s t) ∧
    (∃ t, exec (.skipNeqReg x y) s = .next t ∧ t.pc = (if s.reg x = s.reg y then s.pc + 2 else s.pc + 4) ∧
      t.result = some .ok ∧ KeepsAllButRegs [] s t)

/-- R147 jump-offset: always `V0`, not reduced to 12 bits, no further advance; beyond memory the next CYCLE cannot
fetch. Rests on the spec's own decision D17 (log 4). -/
def Obligations.JumpOffsetAddsV0 : Prop :=
  ∀ (nnn : Addr), decode (0xB#4 ++ nnn) = .ok (.jumpOffset nnn) ∧
  ∀ s : State, ∃ t, exec (.jumpOffset nnn) s = .next t ∧ t.pc.toNat = nnn.toNat + (s.reg 0).toNat ∧
    t.result = some .ok ∧ KeepsAllButRegs [] s t ∧
    (0xFFF ≤ nnn.toNat + (s.reg 0).toNat → s.fault = none → ∀ keys rnd, ∃ u, cycle keys rnd t = .next u ∧
      OnlyLatchSet .fetchOutOfRange 0x0000 (t.present keys rnd) u)

/-- R99, R126 for row 35: a machine routine has no operation: its word is reported and nothing changes. Rests on the
spec's own decisions D6, D7 (log 4). -/
def Obligations.MachineRoutineHasNoOperation : Prop :=
  ∀ (nnn : Addr) (s : State), ∃ t, exec (.machineRoutine nnn) s = .next t ∧ SameCore s t ∧
    t.result = some (.unimplemented (0x0#4 ++ nnn) s.pc) ∧ KeepsDriver s t

/-! ### Register operations -/

/-- R160 load-imm. -/
def Obligations.LoadImmWritesTheByte : Prop :=
  ∀ (x : RegNum) (kk : Byte), decode (0x6#4 ++ x ++ kk) = .ok (.loadImm x kk) ∧
  ∀ s : State, ∃ t, exec (.loadImm x kk) s = .next t ∧ t.reg x = kk ∧ t.pc = s.pc + 2 ∧ t.result = some .ok ∧
    KeepsAllButRegs [x] s t

/-- R161 add-imm: wraps modulo 256, writes no flag. -/
def Obligations.AddImmWrapsWithoutFlag : Prop :=
  ∀ (x : RegNum) (kk : Byte), decode (0x7#4 ++ x ++ kk) = .ok (.addImm x kk) ∧
  ∀ s : State, ∃ t, exec (.addImm x kk) s = .next t ∧ (t.reg x).toNat = ((s.reg x).toNat + kk.toNat) % 256 ∧
    t.pc = s.pc + 2 ∧ t.result = some .ok ∧ KeepsAllButRegs [x] s t

/-- R162 to R165: assign, or, and, xor write `Vx` bit by bit and no flag. Rests on the spec's own decision D11 (log
4). -/
def Obligations.LogicOperationsWriteNoFlag : Prop :=
  ∀ x y : RegNum,
    decode (0x8#4 ++ x ++ y ++ 0x0#4) = .ok (.assign x y) ∧ decode (0x8#4 ++ x ++ y ++ 0x1#4) = .ok (.orReg x y) ∧
    decode (0x8#4 ++ x ++ y ++ 0x2#4) = .ok (.andReg x y) ∧ decode (0x8#4 ++ x ++ y ++ 0x3#4) = .ok (.xorReg x y) ∧
  ∀ s : State,
    (∃ t, exec (.assign x y) s = .next t ∧ t.reg x = s.reg y ∧ t.pc = s.pc + 2 ∧ t.result = some .ok ∧
      KeepsAllButRegs [x] s t) ∧
    (∃ t, exec (.orReg x y) s = .next t ∧
      (∀ k, (t.reg x).getLsbD k = ((s.reg x).getLsbD k || (s.reg y).getLsbD k)) ∧ t.pc = s.pc + 2 ∧
      t.result = some .ok ∧ KeepsAllButRegs [x] s t) ∧
    (∃ t, exec (.andReg x y) s = .next t ∧
      (∀ k, (t.reg x).getLsbD k = ((s.reg x).getLsbD k && (s.reg y).getLsbD k)) ∧ t.pc = s.pc + 2 ∧
      t.result = some .ok ∧ KeepsAllButRegs [x] s t) ∧
    (∃ t, exec (.xorReg x y) s = .next t ∧
      (∀ k, (t.reg x).getLsbD k = ((s.reg x).getLsbD k ^^ (s.reg y).getLsbD k)) ∧ t.pc = s.pc + 2 ∧
      t.result = some .ok ∧ KeepsAllButRegs [x] s t)

/-- R166 add-with-carry: the flag is the carry at the 256 boundary; with `x = 15` the flag remains. -/
def Obligations.AddWithCarrySetsTheCarry : Prop :=
  ∀ x y : RegNum, decode (0x8#4 ++ x ++ y ++ 0x4#4) = .ok (.addWithCarry x y) ∧
  ∀ s : State, ∃ t, exec (.addWithCarry x y) s = .next t ∧
    (x ≠ 15 → (t.reg x).toNat = ((s.reg x).toNat + (s.reg y).toNat) % 256) ∧
    t.reg 15 = (if (s.reg x).toNat + (s.reg y).toNat > 255 then 1 else 0) ∧
    t.pc = s.pc + 2 ∧ t.result = some .ok ∧ KeepsAllButRegs [x, 15] s t

/-- R167 subtract-with-not-borrow. Rests on the spec's own decisions D12, D13 (log 4). -/
def Obligations.SubtractSetsNotBorrow : Prop :=
  ∀ x y : RegNum, decode (0x8#4 ++ x ++ y ++ 0x5#4) = .ok (.subNotBorrow x y) ∧
  ∀ s : State, ∃ t, exec (.subNotBorrow x y) s = .next t ∧
    (x ≠ 15 → (t.reg x).toNat = ((s.reg x).toNat + 256 - (s.reg y).toNat) % 256) ∧
    t.reg 15 = (if (s.reg x).toNat ≥ (s.reg y).toNat then 1 else 0) ∧
    t.pc = s.pc + 2 ∧ t.result = some .ok ∧ KeepsAllButRegs [x, 15] s t

/-- R168 shift-right-with-carry-out: `Vx` is shifted, `y` is ignored; the alternative `SHIFT_SOURCE = Vy` would take
its operand from `Vy`. Rests on the spec's own decisions D10, D12 (log 4). -/
def Obligations.ShiftRightMovesBitZeroOut : Prop :=
  ∀ x y : RegNum, decode (0x8#4 ++ x ++ y ++ 0x6#4) = .ok (.shiftRight x y) ∧
  ∀ s : State, ∃ t, exec (.shiftRight x y) s = .next t ∧
    (x ≠ 15 → (t.reg x).toNat = (s.reg x).toNat / 2) ∧ (t.reg 15).toNat = (s.reg x).toNat % 2 ∧
    t.pc = s.pc + 2 ∧ t.result = some .ok ∧ KeepsAllButRegs [x, 15] s t ∧
    Config.hw.shiftSource = .vx ∧ shiftOperand .vx s x y = s.reg x ∧ shiftOperand .vy s x y = s.reg y

/-- R169 subtract-reverse-with-not-borrow: the destination is still `Vx`. Rests on the spec's own decisions D12, D13
(log 4). -/
def Obligations.ReverseSubtractSetsNotBorrow : Prop :=
  ∀ x y : RegNum, decode (0x8#4 ++ x ++ y ++ 0x7#4) = .ok (.subRevNotBorrow x y) ∧
  ∀ s : State, ∃ t, exec (.subRevNotBorrow x y) s = .next t ∧
    (x ≠ 15 → (t.reg x).toNat = ((s.reg y).toNat + 256 - (s.reg x).toNat) % 256) ∧
    t.reg 15 = (if (s.reg y).toNat ≥ (s.reg x).toNat then 1 else 0) ∧
    t.pc = s.pc + 2 ∧ t.result = some .ok ∧ KeepsAllButRegs [x, 15] s t

/-- R170 shift-left-with-carry-out. Rests on the spec's own decisions D10, D12 (log 4). -/
def Obligations.ShiftLeftMovesBitSevenOut : Prop :=
  ∀ x y : RegNum, decode (0x8#4 ++ x ++ y ++ 0xE#4) = .ok (.shiftLeft x y) ∧
  ∀ s : State, ∃ t, exec (.shiftLeft x y) s = .next t ∧
    (x ≠ 15 → (t.reg x).toNat = (s.reg x).toNat * 2 % 256) ∧ (t.reg 15).toNat = (s.reg x).toNat / 128 ∧
    t.pc = s.pc + 2 ∧ t.result = some .ok ∧ KeepsAllButRegs [x, 15] s t ∧
    Config.hw.shiftSource = .vx ∧ shiftOperand .vx s x y = s.reg x ∧ shiftOperand .vy s x y = s.reg y

/-- R171 random: the input byte of this CYCLE masked by `kk`, for every input byte. Rests on the spec's own decision
D21 (log 4). -/
def Obligations.RandomMasksTheInputByte : Prop :=
  ∀ (x : RegNum) (kk : Byte), decode (0xC#4 ++ x ++ kk) = .ok (.random x kk) ∧
  ∀ s : State, ∃ t, exec (.random x kk) s = .next t ∧
    (∀ k, (t.reg x).getLsbD k = (s.rnd.getLsbD k && kk.getLsbD k)) ∧ t.pc = s.pc + 2 ∧ t.result = some .ok ∧
    KeepsAllButRegs [x] s t

/-! ### Index register and memory -/

/-- R180 set-index. -/
def Obligations.SetIndexWritesTheAddress : Prop :=
  ∀ (nnn : Addr), decode (0xA#4 ++ nnn) = .ok (.setIndex nnn) ∧
  ∀ s : State, ∃ t, exec (.setIndex nnn) s = .next t ∧ t.idx.toNat = nnn.toNat ∧ t.pc = s.pc + 2 ∧
    t.result = some .ok ∧ KeepsRegs [] s t ∧ KeepsStack s t ∧ KeepsTimers s t ∧ KeepsMem s t ∧ KeepsDisplay s t ∧
    KeepsLatch s t ∧ KeepsDriver s t

/-- R181 add-index: wraps at 65536, not reduced to 12 bits, no flag. Rests on the spec's own decision D16 (log 4). -/
def Obligations.AddIndexWrapsAtSixteenBits : Prop :=
  ∀ x : RegNum, decode (0xF#4 ++ x ++ 0x1E#8) = .ok (.addIndex x) ∧
  ∀ s : State, ∃ t, exec (.addIndex x) s = .next t ∧ t.idx.toNat = (s.idx.toNat + (s.reg x).toNat) % 65536 ∧
    t.pc = s.pc + 2 ∧ t.result = some .ok ∧ KeepsRegs [] s t ∧ KeepsStack s t ∧ KeepsTimers s t ∧ KeepsMem s t ∧
    KeepsDisplay s t ∧ KeepsLatch s t ∧ KeepsDriver s t

/-- R182 load-font-addr: the formula on the whole byte; for a digit, with the font in place, the five bytes there are
its glyph (R33). Rests on the spec's own decisions D15, D22 (log 4). -/
def Obligations.LoadFontAddrPointsAtTheGlyph : Prop :=
  ∀ x : RegNum, decode (0xF#4 ++ x ++ 0x29#8) = .ok (.loadFontAddr x) ∧
  ∀ s : State, ∃ t, exec (.loadFontAddr x) s = .next t ∧ t.idx.toNat = 0x050 + 5 * (s.reg x).toNat ∧
    t.pc = s.pc + 2 ∧ t.result = some .ok ∧ KeepsRegs [] s t ∧ KeepsStack s t ∧ KeepsTimers s t ∧ KeepsMem s t ∧
    KeepsDisplay s t ∧ KeepsLatch s t ∧ KeepsDriver s t ∧
    ((∀ a, 0x050 ≤ a → a ≤ 0x09F → s.readByte a = State.reset.readByte a) → ∀ (d : Fin 16) (k : Fin 5), (s.reg x).toNat = d.val →
      t.readByte (t.idx.toNat + k.val) = standardFont[d][k])

/-- R183 store-bcd: hundreds, tens, ones at `I`, `I + 1`, `I + 2`; out of range nothing is written. -/
def Obligations.StoreBcdWritesThreeDigits : Prop :=
  ∀ x : RegNum, decode (0xF#4 ++ x ++ 0x33#8) = .ok (.storeBcd x) ∧
  ∀ s : State,
    (s.idx.toNat > 0xFFD → ∃ t, exec (.storeBcd x) s = .next t ∧
      OnlyLatchSet .memoryOutOfRange (0xF#4 ++ x ++ 0x33#8) s t) ∧
    (s.idx.toNat ≤ 0xFFD → ∃ t, exec (.storeBcd x) s = .next t ∧
      (t.readByte s.idx.toNat).toNat = (s.reg x).toNat / 100 ∧
      (t.readByte (s.idx.toNat + 1)).toNat = (s.reg x).toNat / 10 % 10 ∧
      (t.readByte (s.idx.toNat + 2)).toNat = (s.reg x).toNat % 10 ∧
      KeepsMemOutside s.idx.toNat 3 s t ∧ t.pc = s.pc + 2 ∧ t.result = some .ok ∧
      KeepsRegs [] s t ∧ KeepsIdx s t ∧ KeepsStack s t ∧ KeepsTimers s t ∧ KeepsDisplay s t ∧ KeepsLatch s t ∧
      KeepsDriver s t)

/-- R184 store-regs: `V0..Vx` to `I` upward; `I` unchanged; out of range nothing is written. Rests on the spec's own
decision D14 (log 4). -/
def Obligations.StoreRegsCopiesRegistersToMemory : Prop :=
  ∀ x : RegNum, decode (0xF#4 ++ x ++ 0x55#8) = .ok (.storeRegs x) ∧
  ∀ s : State,
    (s.idx.toNat + x.toNat > 0xFFF → ∃ t, exec (.storeRegs x) s = .next t ∧
      OnlyLatchSet .memoryOutOfRange (0xF#4 ++ x ++ 0x55#8) s t) ∧
    (s.idx.toNat + x.toNat ≤ 0xFFF → ∃ t, exec (.storeRegs x) s = .next t ∧
      (∀ r : RegNum, r.toNat ≤ x.toNat → t.readByte (s.idx.toNat + r.toNat) = s.reg r) ∧
      KeepsMemOutside s.idx.toNat (x.toNat + 1) s t ∧ t.pc = s.pc + 2 ∧ t.result = some .ok ∧
      KeepsRegs [] s t ∧ KeepsIdx s t ∧ KeepsStack s t ∧ KeepsTimers s t ∧ KeepsDisplay s t ∧ KeepsLatch s t ∧
      KeepsDriver s t)

/-- R185 load-regs: memory at `I` upward to `V0..Vx`, `VF` like any register; higher registers and `I` unchanged; and
after a store-regs with the same `x`, whatever leaves the stored bytes and `I` alone, load-regs gives back the
registers as they were at the store. Rests on the spec's own decision D14 (log 4). -/
def Obligations.LoadRegsCopiesMemoryToRegisters : Prop :=
  ∀ x : RegNum, decode (0xF#4 ++ x ++ 0x65#8) = .ok (.loadRegs x) ∧
  ∀ s : State,
    (s.idx.toNat + x.toNat > 0xFFF → ∃ t, exec (.loadRegs x) s = .next t ∧
      OnlyLatchSet .memoryOutOfRange (0xF#4 ++ x ++ 0x65#8) s t) ∧
    (s.idx.toNat + x.toNat ≤ 0xFFF → ∃ t, exec (.loadRegs x) s = .next t ∧
      (∀ r : RegNum, r.toNat ≤ x.toNat → t.reg r = s.readByte (s.idx.toNat + r.toNat)) ∧
      (∀ r : RegNum, x.toNat < r.toNat → t.reg r = s.reg r) ∧ t.pc = s.pc + 2 ∧ t.result = some .ok ∧
      KeepsIdx s t ∧ KeepsStack s t ∧ KeepsTimers s t ∧ KeepsMem s t ∧ KeepsDisplay s t ∧ KeepsLatch s t ∧
      KeepsDriver s t) ∧
    (∀ t u, exec (.storeRegs x) s = .next t → t.result = some .ok → u.idx = t.idx →
      (∀ r : RegNum, r.toNat ≤ x.toNat → u.readByte (t.idx.toNat + r.toNat) = t.readByte (t.idx.toNat + r.toNat)) →
      ∃ w, exec (.loadRegs x) u = .next w ∧ w.result = some .ok ∧ ∀ r : RegNum, r.toNat ≤ x.toNat → w.reg r = s.reg r)

/-! ### Display -/

/-- R190 clear-screen. -/
def Obligations.ClearScreenUnlightsEveryCell : Prop :=
  decode 0x00E0 = .ok .clearScreen ∧
  ∀ s : State, ∃ t, exec .clearScreen s = .next t ∧ (∀ i, fbGet t.fb i = false) ∧ t.pc = s.pc + 2 ∧
    t.result = some .ok ∧ KeepsRegs [] s t ∧ KeepsIdx s t ∧ KeepsStack s t ∧ KeepsTimers s t ∧ KeepsMem s t ∧
    KeepsLatch s t ∧ KeepsDriver s t

/-- R191 draw: every sprite pixel's cell is XORed once, every other cell is left alone, `VF` is 1 iff a lit cell lay
under a 1 bit; out of range nothing changes; `n = 0` reads nothing and clears `VF`. Rests on the spec's own decision
D19 (log 4). -/
def Obligations.DrawXorsTheSprite : Prop :=
  ∀ (x y : RegNum) (n : Height), decode (0xD#4 ++ x ++ y ++ n) = .ok (.draw x y n) ∧
  ∀ s : State,
    (1 ≤ n.toNat ∧ s.idx.toNat + n.toNat - 1 > 0xFFF → ∃ t, exec (.draw x y n) s = .next t ∧
      OnlyLatchSet .memoryOutOfRange (0xD#4 ++ x ++ y ++ n) s t) ∧
    (¬(1 ≤ n.toNat ∧ s.idx.toNat + n.toNat - 1 > 0xFFF) → ∃ t, exec (.draw x y n) s = .next t ∧
      (∀ r c, r < n.toNat → c < 8 → fbGet t.fb (spriteCell s x y r c) =
        (fbGet s.fb (spriteCell s x y r c) ^^ spriteBit s r c)) ∧
      (∀ i, (∀ r c, r < n.toNat → c < 8 → i ≠ spriteCell s x y r c) → fbGet t.fb i = fbGet s.fb i) ∧
      (t.reg 15 = 0 ∨ t.reg 15 = 1) ∧
      (t.reg 15 = 1 ↔ ∃ r c, r < n.toNat ∧ c < 8 ∧ spriteBit s r c = true ∧
        fbGet s.fb (spriteCell s x y r c) = true) ∧
      t.pc = s.pc + 2 ∧ t.result = some .ok ∧ KeepsRegs [15] s t ∧ KeepsIdx s t ∧ KeepsStack s t ∧ KeepsTimers s t ∧
      KeepsMem s t ∧ KeepsLatch s t ∧ KeepsDriver s t)

/-- R192: the first draw inverts every cell under a 1 bit, the same draw again restores every cell; the first flag
says that the sprite has a 1 bit over a lit cell, the second that it has one over a cell that was unlit before the
first; a flag says no more than that. The spec marks it as derived. -/
def Obligations.DrawTwiceRestoresTheDisplay : Prop :=
  ∀ (x y : RegNum) (n : Height) (s t : State), exec (.draw x y n) s = .next t → t.result = some .ok →
    t.reg x = s.reg x → t.reg y = s.reg y →
    (∀ r c, r < n.toNat → c < 8 → spriteBit s r c = true →
      fbGet t.fb (spriteCell s x y r c) = !fbGet s.fb (spriteCell s x y r c)) ∧
    ∃ u, exec (.draw x y n) t = .next u ∧ KeepsDisplay s u ∧ u.result = some .ok ∧
      (t.reg 15 = 0 ∨ t.reg 15 = 1) ∧ (u.reg 15 = 0 ∨ u.reg 15 = 1) ∧
      (t.reg 15 = 1 ↔ ∃ r c, r < n.toNat ∧ c < 8 ∧ spriteBit s r c = true ∧
        fbGet s.fb (spriteCell s x y r c) = true) ∧
      (u.reg 15 = 1 ↔ ∃ r c, r < n.toNat ∧ c < 8 ∧ spriteBit s r c = true ∧
        fbGet s.fb (spriteCell s x y r c) = false)

/-! ### Keys and timers -/

/-- R200 skip-if-key-down. Rests on the spec's own decision D5 (log 4). -/
def Obligations.SkipIfKeyDownTestsTheLine : Prop :=
  ∀ x : RegNum, decode (0xE#4 ++ x ++ 0x9E#8) = .ok (.skipIfKeyDown x) ∧
  ∀ s : State,
    ((s.reg x).toNat > 15 → ∃ t, exec (.skipIfKeyDown x) s = .next t ∧
      OnlyLatchSet .keyIndexOutOfRange (0xE#4 ++ x ++ 0x9E#8) s t) ∧
    ((s.reg x).toNat ≤ 15 → ∃ t, exec (.skipIfKeyDown x) s = .next t ∧
      t.pc = (if s.keys.getLsbD (s.reg x).toNat = true then s.pc + 4 else s.pc + 2) ∧ t.result = some .ok ∧
      KeepsAllButRegs [] s t)

/-- R201 skip-if-key-up. Rests on the spec's own decision D5 (log 4). -/
def Obligations.SkipIfKeyUpTestsTheLine : Prop :=
  ∀ x : RegNum, decode (0xE#4 ++ x ++ 0xA1#8) = .ok (.skipIfKeyUp x) ∧
  ∀ s : State,
    ((s.reg x).toNat > 15 → ∃ t, exec (.skipIfKeyUp x) s = .next t ∧
      OnlyLatchSet .keyIndexOutOfRange (0xE#4 ++ x ++ 0xA1#8) s t) ∧
    ((s.reg x).toNat ≤ 15 → ∃ t, exec (.skipIfKeyUp x) s = .next t ∧
      t.pc = (if s.keys.getLsbD (s.reg x).toNat = true then s.pc + 2 else s.pc + 4) ∧ t.result = some .ok ∧
      KeepsAllButRegs [] s t)

/-- R202 wait-for-key: with no key down nothing changes; else the least line that is down goes to `Vx`. A CYCLE is
Waiting exactly when R202 (d) says so. Rests on the spec's own decision D27 (log 4). -/
def Obligations.WaitForKeyTakesTheLowestKey : Prop :=
  ∀ x : RegNum, decode (0xF#4 ++ x ++ 0x0A#8) = .ok (.waitForKey x) ∧
  ∀ s : State,
    (s.keys = 0 → ∃ t, exec (.waitForKey x) s = .next t ∧ SameCore s t ∧ KeepsDriver s t ∧
      t.result = some .waiting) ∧
    (s.keys ≠ 0 → ∃ t k, exec (.waitForKey x) s = .next t ∧ k < 16 ∧ s.keys.getLsbD k = true ∧
      (∀ j, j < k → s.keys.getLsbD j = false) ∧ (t.reg x).toNat = k ∧ t.pc = s.pc + 2 ∧ t.result = some .ok ∧
      KeepsAllButRegs [x] s t) ∧
    (∀ keys rnd, ∃ t, cycle keys rnd s = .next t ∧ (t.result = some .waiting ↔ Waiting s keys))

/-- R203 load-delay. -/
def Obligations.LoadDelayReadsTheTimer : Prop :=
  ∀ x : RegNum, decode (0xF#4 ++ x ++ 0x07#8) = .ok (.loadDelay x) ∧
  ∀ s : State, ∃ t, exec (.loadDelay x) s = .next t ∧ t.reg x = s.dt ∧ t.pc = s.pc + 2 ∧ t.result = some .ok ∧
    KeepsAllButRegs [x] s t

/-- R204 store-delay: every value, 0 too. -/
def Obligations.StoreDelayWritesTheTimer : Prop :=
  ∀ x : RegNum, decode (0xF#4 ++ x ++ 0x15#8) = .ok (.storeDelay x) ∧
  ∀ s : State, ∃ t, exec (.storeDelay x) s = .next t ∧ t.dt = s.reg x ∧ t.st = s.st ∧ t.pc = s.pc + 2 ∧
    t.result = some .ok ∧ KeepsRegs [] s t ∧ KeepsIdx s t ∧ KeepsStack s t ∧ KeepsMem s t ∧ KeepsDisplay s t ∧
    KeepsLatch s t ∧ KeepsDriver s t

/-- R205 store-sound; and no instruction reads `ST` back: another value in it changes nothing else of any instruction's
outcome. -/
def Obligations.StoreSoundWritesTheTimer : Prop :=
  (∀ x : RegNum, decode (0xF#4 ++ x ++ 0x18#8) = .ok (.storeSound x) ∧
  ∀ s : State, ∃ t, exec (.storeSound x) s = .next t ∧ t.st = s.reg x ∧ t.dt = s.dt ∧ t.pc = s.pc + 2 ∧
    t.result = some .ok ∧ KeepsRegs [] s t ∧ KeepsIdx s t ∧ KeepsStack s t ∧ KeepsMem s t ∧ KeepsDisplay s t ∧
    KeepsLatch s t ∧ KeepsDriver s t) ∧
  (∀ (i : Instr) (s t : State) (b : Byte), exec i s = .next t →
    ∃ t', exec i { s with st := b } = .next t' ∧ { t' with st := t.st } = t)

/-! ### The end of a run -/

/-- R267: the four ways a run stops making progress: halted, held on an unimplemented word, waiting, and a jump to its
own address. In each of them a CYCLE leaves the spec's tuple unchanged. Rests on the spec's own decisions D2, D6, D27,
D29 (log 4). -/
def Obligations.FourWaysOfNoProgress : Prop :=
  ∀ (s : State) (keys : Keys) (rnd : Byte),
    Halted s ∨ HeldOnUnimplemented s ∨ Waiting s keys ∨ ProgramEnded s →
    ∃ t, cycle keys rnd s = .next t ∧ SameCore s t
end

