-- ==== Sys2Proof/Laws/State.lean ====
section
/-! SUPPORT. One lemma per field per update of the state, so that no later proof unfolds a record update; and the values
of this hardware's parameters (rule R6). -/

namespace Sys2Proof

@[simp] theorem Config.hw_unimplPolicy : Config.hw.unimplPolicy = .hold := rfl
@[simp] theorem Config.hw_shiftSource : Config.hw.shiftSource = .vx := rfl
@[simp] theorem Config.hw_logicWritesVF : Config.hw.logicWritesVF = false := rfl
@[simp] theorem Config.hw_memopIncrementsI : Config.hw.memopIncrementsI = false := rfl

namespace Machine

variable (s : State)

/-! ### setReg -/

theorem State.setReg_v (x : RegNum) (b : Byte) : (s.setReg x b).v = s.v.set x.toNat b (by have := x.isLt; omega) := rfl
@[simp] theorem State.setReg_idx (x : RegNum) (b : Byte) : (s.setReg x b).idx = s.idx := rfl
@[simp] theorem State.setReg_pc (x : RegNum) (b : Byte) : (s.setReg x b).pc = s.pc := rfl
@[simp] theorem State.setReg_sp (x : RegNum) (b : Byte) : (s.setReg x b).sp = s.sp := rfl
@[simp] theorem State.setReg_stack (x : RegNum) (b : Byte) : (s.setReg x b).stack = s.stack := rfl
@[simp] theorem State.setReg_dt (x : RegNum) (b : Byte) : (s.setReg x b).dt = s.dt := rfl
@[simp] theorem State.setReg_st (x : RegNum) (b : Byte) : (s.setReg x b).st = s.st := rfl
@[simp] theorem State.setReg_mem (x : RegNum) (b : Byte) : (s.setReg x b).mem = s.mem := rfl
@[simp] theorem State.setReg_fb (x : RegNum) (b : Byte) : (s.setReg x b).fb = s.fb := rfl
@[simp] theorem State.setReg_fault (x : RegNum) (b : Byte) : (s.setReg x b).fault = s.fault := rfl
@[simp] theorem State.setReg_faultWord (x : RegNum) (b : Byte) : (s.setReg x b).faultWord = s.faultWord := rfl
@[simp] theorem State.setReg_faultPc (x : RegNum) (b : Byte) : (s.setReg x b).faultPc = s.faultPc := rfl
@[simp] theorem State.setReg_keys (x : RegNum) (b : Byte) : (s.setReg x b).keys = s.keys := rfl
@[simp] theorem State.setReg_rnd (x : RegNum) (b : Byte) : (s.setReg x b).rnd = s.rnd := rfl
@[simp] theorem State.setReg_result (x : RegNum) (b : Byte) : (s.setReg x b).result = s.result := rfl
@[simp] theorem State.setReg_awaitingLoad (x : RegNum) (b : Byte) : (s.setReg x b).awaitingLoad = s.awaitingLoad := rfl
@[simp] theorem State.setReg_pending (x : RegNum) (b : Byte) : (s.setReg x b).pending = s.pending := rfl
@[simp] theorem State.setReg_freeIndex (x : RegNum) (b : Byte) : (s.setReg x b).freeIndex = s.freeIndex := rfl
@[simp] theorem State.setReg_readByte (x : RegNum) (b : Byte) (z : Nat) : (s.setReg x b).readByte z = s.readByte z := rfl

/-! ### setFlag -/

@[simp] theorem State.setFlag_idx (f : Bool) : (s.setFlag f).idx = s.idx := rfl
@[simp] theorem State.setFlag_pc (f : Bool) : (s.setFlag f).pc = s.pc := rfl
@[simp] theorem State.setFlag_sp (f : Bool) : (s.setFlag f).sp = s.sp := rfl
@[simp] theorem State.setFlag_stack (f : Bool) : (s.setFlag f).stack = s.stack := rfl
@[simp] theorem State.setFlag_dt (f : Bool) : (s.setFlag f).dt = s.dt := rfl
@[simp] theorem State.setFlag_st (f : Bool) : (s.setFlag f).st = s.st := rfl
@[simp] theorem State.setFlag_mem (f : Bool) : (s.setFlag f).mem = s.mem := rfl
@[simp] theorem State.setFlag_fb (f : Bool) : (s.setFlag f).fb = s.fb := rfl
@[simp] theorem State.setFlag_fault (f : Bool) : (s.setFlag f).fault = s.fault := rfl
@[simp] theorem State.setFlag_faultWord (f : Bool) : (s.setFlag f).faultWord = s.faultWord := rfl
@[simp] theorem State.setFlag_faultPc (f : Bool) : (s.setFlag f).faultPc = s.faultPc := rfl
@[simp] theorem State.setFlag_keys (f : Bool) : (s.setFlag f).keys = s.keys := rfl
@[simp] theorem State.setFlag_rnd (f : Bool) : (s.setFlag f).rnd = s.rnd := rfl
@[simp] theorem State.setFlag_result (f : Bool) : (s.setFlag f).result = s.result := rfl
@[simp] theorem State.setFlag_awaitingLoad (f : Bool) : (s.setFlag f).awaitingLoad = s.awaitingLoad := rfl
@[simp] theorem State.setFlag_pending (f : Bool) : (s.setFlag f).pending = s.pending := rfl
@[simp] theorem State.setFlag_freeIndex (f : Bool) : (s.setFlag f).freeIndex = s.freeIndex := rfl
@[simp] theorem State.setFlag_readByte (f : Bool) (z : Nat) : (s.setFlag f).readByte z = s.readByte z := rfl

/-! ### setRegFlag -/

@[simp] theorem State.setRegFlag_idx (x : RegNum) (r : Byte) (f : Bool) : (s.setRegFlag x r f).idx = s.idx := rfl
@[simp] theorem State.setRegFlag_pc (x : RegNum) (r : Byte) (f : Bool) : (s.setRegFlag x r f).pc = s.pc := rfl
@[simp] theorem State.setRegFlag_sp (x : RegNum) (r : Byte) (f : Bool) : (s.setRegFlag x r f).sp = s.sp := rfl
@[simp] theorem State.setRegFlag_stack (x : RegNum) (r : Byte) (f : Bool) : (s.setRegFlag x r f).stack = s.stack := rfl
@[simp] theorem State.setRegFlag_dt (x : RegNum) (r : Byte) (f : Bool) : (s.setRegFlag x r f).dt = s.dt := rfl
@[simp] theorem State.setRegFlag_st (x : RegNum) (r : Byte) (f : Bool) : (s.setRegFlag x r f).st = s.st := rfl
@[simp] theorem State.setRegFlag_mem (x : RegNum) (r : Byte) (f : Bool) : (s.setRegFlag x r f).mem = s.mem := rfl
@[simp] theorem State.setRegFlag_fb (x : RegNum) (r : Byte) (f : Bool) : (s.setRegFlag x r f).fb = s.fb := rfl
@[simp] theorem State.setRegFlag_fault (x : RegNum) (r : Byte) (f : Bool) : (s.setRegFlag x r f).fault = s.fault := rfl
@[simp] theorem State.setRegFlag_faultWord (x : RegNum) (r : Byte) (f : Bool) : (s.setRegFlag x r f).faultWord = s.faultWord := rfl
@[simp] theorem State.setRegFlag_faultPc (x : RegNum) (r : Byte) (f : Bool) : (s.setRegFlag x r f).faultPc = s.faultPc := rfl
@[simp] theorem State.setRegFlag_keys (x : RegNum) (r : Byte) (f : Bool) : (s.setRegFlag x r f).keys = s.keys := rfl
@[simp] theorem State.setRegFlag_rnd (x : RegNum) (r : Byte) (f : Bool) : (s.setRegFlag x r f).rnd = s.rnd := rfl
@[simp] theorem State.setRegFlag_result (x : RegNum) (r : Byte) (f : Bool) : (s.setRegFlag x r f).result = s.result := rfl
@[simp] theorem State.setRegFlag_awaitingLoad (x : RegNum) (r : Byte) (f : Bool) : (s.setRegFlag x r f).awaitingLoad = s.awaitingLoad := rfl
@[simp] theorem State.setRegFlag_pending (x : RegNum) (r : Byte) (f : Bool) : (s.setRegFlag x r f).pending = s.pending := rfl
@[simp] theorem State.setRegFlag_freeIndex (x : RegNum) (r : Byte) (f : Bool) : (s.setRegFlag x r f).freeIndex = s.freeIndex := rfl
@[simp] theorem State.setRegFlag_readByte (x : RegNum) (r : Byte) (f : Bool) (z : Nat) : (s.setRegFlag x r f).readByte z = s.readByte z := rfl

/-! ### setIdx -/

@[simp] theorem State.setIdx_v (w : Word) : (s.setIdx w).v = s.v := rfl
@[simp] theorem State.setIdx_idx (w : Word) : (s.setIdx w).idx = w := rfl
@[simp] theorem State.setIdx_pc (w : Word) : (s.setIdx w).pc = s.pc := rfl
@[simp] theorem State.setIdx_sp (w : Word) : (s.setIdx w).sp = s.sp := rfl
@[simp] theorem State.setIdx_stack (w : Word) : (s.setIdx w).stack = s.stack := rfl
@[simp] theorem State.setIdx_dt (w : Word) : (s.setIdx w).dt = s.dt := rfl
@[simp] theorem State.setIdx_st (w : Word) : (s.setIdx w).st = s.st := rfl
@[simp] theorem State.setIdx_mem (w : Word) : (s.setIdx w).mem = s.mem := rfl
@[simp] theorem State.setIdx_fb (w : Word) : (s.setIdx w).fb = s.fb := rfl
@[simp] theorem State.setIdx_fault (w : Word) : (s.setIdx w).fault = s.fault := rfl
@[simp] theorem State.setIdx_faultWord (w : Word) : (s.setIdx w).faultWord = s.faultWord := rfl
@[simp] theorem State.setIdx_faultPc (w : Word) : (s.setIdx w).faultPc = s.faultPc := rfl
@[simp] theorem State.setIdx_keys (w : Word) : (s.setIdx w).keys = s.keys := rfl
@[simp] theorem State.setIdx_rnd (w : Word) : (s.setIdx w).rnd = s.rnd := rfl
@[simp] theorem State.setIdx_result (w : Word) : (s.setIdx w).result = s.result := rfl
@[simp] theorem State.setIdx_awaitingLoad (w : Word) : (s.setIdx w).awaitingLoad = s.awaitingLoad := rfl
@[simp] theorem State.setIdx_pending (w : Word) : (s.setIdx w).pending = s.pending := rfl
@[simp] theorem State.setIdx_freeIndex (w : Word) : (s.setIdx w).freeIndex = s.freeIndex := rfl
@[simp] theorem State.setIdx_reg (w : Word) (z : RegNum) : (s.setIdx w).reg z = s.reg z := rfl
@[simp] theorem State.setIdx_readByte (w : Word) (z : Nat) : (s.setIdx w).readByte z = s.readByte z := rfl

/-! ### setPc -/

@[simp] theorem State.setPc_v (w : Word) : (s.setPc w).v = s.v := rfl
@[simp] theorem State.setPc_idx (w : Word) : (s.setPc w).idx = s.idx := rfl
@[simp] theorem State.setPc_pc (w : Word) : (s.setPc w).pc = w := rfl
@[simp] theorem State.setPc_sp (w : Word) : (s.setPc w).sp = s.sp := rfl
@[simp] theorem State.setPc_stack (w : Word) : (s.setPc w).stack = s.stack := rfl
@[simp] theorem State.setPc_dt (w : Word) : (s.setPc w).dt = s.dt := rfl
@[simp] theorem State.setPc_st (w : Word) : (s.setPc w).st = s.st := rfl
@[simp] theorem State.setPc_mem (w : Word) : (s.setPc w).mem = s.mem := rfl
@[simp] theorem State.setPc_fb (w : Word) : (s.setPc w).fb = s.fb := rfl
@[simp] theorem State.setPc_fault (w : Word) : (s.setPc w).fault = s.fault := rfl
@[simp] theorem State.setPc_faultWord (w : Word) : (s.setPc w).faultWord = s.faultWord := rfl
@[simp] theorem State.setPc_faultPc (w : Word) : (s.setPc w).faultPc = s.faultPc := rfl
@[simp] theorem State.setPc_keys (w : Word) : (s.setPc w).keys = s.keys := rfl
@[simp] theorem State.setPc_rnd (w : Word) : (s.setPc w).rnd = s.rnd := rfl
@[simp] theorem State.setPc_result (w : Word) : (s.setPc w).result = s.result := rfl
@[simp] theorem State.setPc_awaitingLoad (w : Word) : (s.setPc w).awaitingLoad = s.awaitingLoad := rfl
@[simp] theorem State.setPc_pending (w : Word) : (s.setPc w).pending = s.pending := rfl
@[simp] theorem State.setPc_freeIndex (w : Word) : (s.setPc w).freeIndex = s.freeIndex := rfl
@[simp] theorem State.setPc_reg (w : Word) (z : RegNum) : (s.setPc w).reg z = s.reg z := rfl
@[simp] theorem State.setPc_readByte (w : Word) (z : Nat) : (s.setPc w).readByte z = s.readByte z := rfl

/-! ### setDt -/

@[simp] theorem State.setDt_v (b : Byte) : (s.setDt b).v = s.v := rfl
@[simp] theorem State.setDt_idx (b : Byte) : (s.setDt b).idx = s.idx := rfl
@[simp] theorem State.setDt_pc (b : Byte) : (s.setDt b).pc = s.pc := rfl
@[simp] theorem State.setDt_sp (b : Byte) : (s.setDt b).sp = s.sp := rfl
@[simp] theorem State.setDt_stack (b : Byte) : (s.setDt b).stack = s.stack := rfl
@[simp] theorem State.setDt_dt (b : Byte) : (s.setDt b).dt = b := rfl
@[simp] theorem State.setDt_st (b : Byte) : (s.setDt b).st = s.st := rfl
@[simp] theorem State.setDt_mem (b : Byte) : (s.setDt b).mem = s.mem := rfl
@[simp] theorem State.setDt_fb (b : Byte) : (s.setDt b).fb = s.fb := rfl
@[simp] theorem State.setDt_fault (b : Byte) : (s.setDt b).fault = s.fault := rfl
@[simp] theorem State.setDt_faultWord (b : Byte) : (s.setDt b).faultWord = s.faultWord := rfl
@[simp] theorem State.setDt_faultPc (b : Byte) : (s.setDt b).faultPc = s.faultPc := rfl
@[simp] theorem State.setDt_keys (b : Byte) : (s.setDt b).keys = s.keys := rfl
@[simp] theorem State.setDt_rnd (b : Byte) : (s.setDt b).rnd = s.rnd := rfl
@[simp] theorem State.setDt_result (b : Byte) : (s.setDt b).result = s.result := rfl
@[simp] theorem State.setDt_awaitingLoad (b : Byte) : (s.setDt b).awaitingLoad = s.awaitingLoad := rfl
@[simp] theorem State.setDt_pending (b : Byte) : (s.setDt b).pending = s.pending := rfl
@[simp] theorem State.setDt_freeIndex (b : Byte) : (s.setDt b).freeIndex = s.freeIndex := rfl
@[simp] theorem State.setDt_reg (b : Byte) (z : RegNum) : (s.setDt b).reg z = s.reg z := rfl
@[simp] theorem State.setDt_readByte (b : Byte) (z : Nat) : (s.setDt b).readByte z = s.readByte z := rfl

/-! ### setSt -/

@[simp] theorem State.setSt_v (b : Byte) : (s.setSt b).v = s.v := rfl
@[simp] theorem State.setSt_idx (b : Byte) : (s.setSt b).idx = s.idx := rfl
@[simp] theorem State.setSt_pc (b : Byte) : (s.setSt b).pc = s.pc := rfl
@[simp] theorem State.setSt_sp (b : Byte) : (s.setSt b).sp = s.sp := rfl
@[simp] theorem State.setSt_stack (b : Byte) : (s.setSt b).stack = s.stack := rfl
@[simp] theorem State.setSt_dt (b : Byte) : (s.setSt b).dt = s.dt := rfl
@[simp] theorem State.setSt_st (b : Byte) : (s.setSt b).st = b := rfl
@[simp] theorem State.setSt_mem (b : Byte) : (s.setSt b).mem = s.mem := rfl
@[simp] theorem State.setSt_fb (b : Byte) : (s.setSt b).fb = s.fb := rfl
@[simp] theorem State.setSt_fault (b : Byte) : (s.setSt b).fault = s.fault := rfl
@[simp] theorem State.setSt_faultWord (b : Byte) : (s.setSt b).faultWord = s.faultWord := rfl
@[simp] theorem State.setSt_faultPc (b : Byte) : (s.setSt b).faultPc = s.faultPc := rfl
@[simp] theorem State.setSt_keys (b : Byte) : (s.setSt b).keys = s.keys := rfl
@[simp] theorem State.setSt_rnd (b : Byte) : (s.setSt b).rnd = s.rnd := rfl
@[simp] theorem State.setSt_result (b : Byte) : (s.setSt b).result = s.result := rfl
@[simp] theorem State.setSt_awaitingLoad (b : Byte) : (s.setSt b).awaitingLoad = s.awaitingLoad := rfl
@[simp] theorem State.setSt_pending (b : Byte) : (s.setSt b).pending = s.pending := rfl
@[simp] theorem State.setSt_freeIndex (b : Byte) : (s.setSt b).freeIndex = s.freeIndex := rfl
@[simp] theorem State.setSt_reg (b : Byte) (z : RegNum) : (s.setSt b).reg z = s.reg z := rfl
@[simp] theorem State.setSt_readByte (b : Byte) (z : Nat) : (s.setSt b).readByte z = s.readByte z := rfl

/-! ### setMem -/

@[simp] theorem State.setMem_v (m : Memory) : (s.setMem m).v = s.v := rfl
@[simp] theorem State.setMem_idx (m : Memory) : (s.setMem m).idx = s.idx := rfl
@[simp] theorem State.setMem_pc (m : Memory) : (s.setMem m).pc = s.pc := rfl
@[simp] theorem State.setMem_sp (m : Memory) : (s.setMem m).sp = s.sp := rfl
@[simp] theorem State.setMem_stack (m : Memory) : (s.setMem m).stack = s.stack := rfl
@[simp] theorem State.setMem_dt (m : Memory) : (s.setMem m).dt = s.dt := rfl
@[simp] theorem State.setMem_st (m : Memory) : (s.setMem m).st = s.st := rfl
@[simp] theorem State.setMem_mem (m : Memory) : (s.setMem m).mem = m := rfl
@[simp] theorem State.setMem_fb (m : Memory) : (s.setMem m).fb = s.fb := rfl
@[simp] theorem State.setMem_fault (m : Memory) : (s.setMem m).fault = s.fault := rfl
@[simp] theorem State.setMem_faultWord (m : Memory) : (s.setMem m).faultWord = s.faultWord := rfl
@[simp] theorem State.setMem_faultPc (m : Memory) : (s.setMem m).faultPc = s.faultPc := rfl
@[simp] theorem State.setMem_keys (m : Memory) : (s.setMem m).keys = s.keys := rfl
@[simp] theorem State.setMem_rnd (m : Memory) : (s.setMem m).rnd = s.rnd := rfl
@[simp] theorem State.setMem_result (m : Memory) : (s.setMem m).result = s.result := rfl
@[simp] theorem State.setMem_awaitingLoad (m : Memory) : (s.setMem m).awaitingLoad = s.awaitingLoad := rfl
@[simp] theorem State.setMem_pending (m : Memory) : (s.setMem m).pending = s.pending := rfl
@[simp] theorem State.setMem_freeIndex (m : Memory) : (s.setMem m).freeIndex = s.freeIndex := rfl
@[simp] theorem State.setMem_reg (m : Memory) (z : RegNum) : (s.setMem m).reg z = s.reg z := rfl

/-! ### setFb -/

@[simp] theorem State.setFb_v (f : Frame) : (s.setFb f).v = s.v := rfl
@[simp] theorem State.setFb_idx (f : Frame) : (s.setFb f).idx = s.idx := rfl
@[simp] theorem State.setFb_pc (f : Frame) : (s.setFb f).pc = s.pc := rfl
@[simp] theorem State.setFb_sp (f : Frame) : (s.setFb f).sp = s.sp := rfl
@[simp] theorem State.setFb_stack (f : Frame) : (s.setFb f).stack = s.stack := rfl
@[simp] theorem State.setFb_dt (f : Frame) : (s.setFb f).dt = s.dt := rfl
@[simp] theorem State.setFb_st (f : Frame) : (s.setFb f).st = s.st := rfl
@[simp] theorem State.setFb_mem (f : Frame) : (s.setFb f).mem = s.mem := rfl
@[simp] theorem State.setFb_fb (f : Frame) : (s.setFb f).fb = f := rfl
@[simp] theorem State.setFb_fault (f : Frame) : (s.setFb f).fault = s.fault := rfl
@[simp] theorem State.setFb_faultWord (f : Frame) : (s.setFb f).faultWord = s.faultWord := rfl
@[simp] theorem State.setFb_faultPc (f : Frame) : (s.setFb f).faultPc = s.faultPc := rfl
@[simp] theorem State.setFb_keys (f : Frame) : (s.setFb f).keys = s.keys := rfl
@[simp] theorem State.setFb_rnd (f : Frame) : (s.setFb f).rnd = s.rnd := rfl
@[simp] theorem State.setFb_result (f : Frame) : (s.setFb f).result = s.result := rfl
@[simp] theorem State.setFb_awaitingLoad (f : Frame) : (s.setFb f).awaitingLoad = s.awaitingLoad := rfl
@[simp] theorem State.setFb_pending (f : Frame) : (s.setFb f).pending = s.pending := rfl
@[simp] theorem State.setFb_freeIndex (f : Frame) : (s.setFb f).freeIndex = s.freeIndex := rfl
@[simp] theorem State.setFb_reg (f : Frame) (z : RegNum) : (s.setFb f).reg z = s.reg z := rfl
@[simp] theorem State.setFb_readByte (f : Frame) (z : Nat) : (s.setFb f).readByte z = s.readByte z := rfl

/-! ### setResult -/

@[simp] theorem State.setResult_v (r : CycleResult) : (s.setResult r).v = s.v := rfl
@[simp] theorem State.setResult_idx (r : CycleResult) : (s.setResult r).idx = s.idx := rfl
@[simp] theorem State.setResult_pc (r : CycleResult) : (s.setResult r).pc = s.pc := rfl
@[simp] theorem State.setResult_sp (r : CycleResult) : (s.setResult r).sp = s.sp := rfl
@[simp] theorem State.setResult_stack (r : CycleResult) : (s.setResult r).stack = s.stack := rfl
@[simp] theorem State.setResult_dt (r : CycleResult) : (s.setResult r).dt = s.dt := rfl
@[simp] theorem State.setResult_st (r : CycleResult) : (s.setResult r).st = s.st := rfl
@[simp] theorem State.setResult_mem (r : CycleResult) : (s.setResult r).mem = s.mem := rfl
@[simp] theorem State.setResult_fb (r : CycleResult) : (s.setResult r).fb = s.fb := rfl
@[simp] theorem State.setResult_fault (r : CycleResult) : (s.setResult r).fault = s.fault := rfl
@[simp] theorem State.setResult_faultWord (r : CycleResult) : (s.setResult r).faultWord = s.faultWord := rfl
@[simp] theorem State.setResult_faultPc (r : CycleResult) : (s.setResult r).faultPc = s.faultPc := rfl
@[simp] theorem State.setResult_keys (r : CycleResult) : (s.setResult r).keys = s.keys := rfl
@[simp] theorem State.setResult_rnd (r : CycleResult) : (s.setResult r).rnd = s.rnd := rfl
@[simp] theorem State.setResult_result (r : CycleResult) : (s.setResult r).result = some r := rfl
@[simp] theorem State.setResult_awaitingLoad (r : CycleResult) : (s.setResult r).awaitingLoad = s.awaitingLoad := rfl
@[simp] theorem State.setResult_pending (r : CycleResult) : (s.setResult r).pending = s.pending := rfl
@[simp] theorem State.setResult_freeIndex (r : CycleResult) : (s.setResult r).freeIndex = s.freeIndex := rfl
@[simp] theorem State.setResult_reg (r : CycleResult) (z : RegNum) : (s.setResult r).reg z = s.reg z := rfl
@[simp] theorem State.setResult_readByte (r : CycleResult) (z : Nat) : (s.setResult r).readByte z = s.readByte z := rfl

/-! ### goTo -/

@[simp] theorem State.goTo_v (w : Word) : (s.goTo w).v = s.v := rfl
@[simp] theorem State.goTo_idx (w : Word) : (s.goTo w).idx = s.idx := rfl
@[simp] theorem State.goTo_pc (w : Word) : (s.goTo w).pc = w := rfl
@[simp] theorem State.goTo_sp (w : Word) : (s.goTo w).sp = s.sp := rfl
@[simp] theorem State.goTo_stack (w : Word) : (s.goTo w).stack = s.stack := rfl
@[simp] theorem State.goTo_dt (w : Word) : (s.goTo w).dt = s.dt := rfl
@[simp] theorem State.goTo_st (w : Word) : (s.goTo w).st = s.st := rfl
@[simp] theorem State.goTo_mem (w : Word) : (s.goTo w).mem = s.mem := rfl
@[simp] theorem State.goTo_fb (w : Word) : (s.goTo w).fb = s.fb := rfl
@[simp] theorem State.goTo_fault (w : Word) : (s.goTo w).fault = s.fault := rfl
@[simp] theorem State.goTo_faultWord (w : Word) : (s.goTo w).faultWord = s.faultWord := rfl
@[simp] theorem State.goTo_faultPc (w : Word) : (s.goTo w).faultPc = s.faultPc := rfl
@[simp] theorem State.goTo_keys (w : Word) : (s.goTo w).keys = s.keys := rfl
@[simp] theorem State.goTo_rnd (w : Word) : (s.goTo w).rnd = s.rnd := rfl
@[simp] theorem State.goTo_result (w : Word) : (s.goTo w).result = some .ok := rfl
@[simp] theorem State.goTo_awaitingLoad (w : Word) : (s.goTo w).awaitingLoad = s.awaitingLoad := rfl
@[simp] theorem State.goTo_pending (w : Word) : (s.goTo w).pending = s.pending := rfl
@[simp] theorem State.goTo_freeIndex (w : Word) : (s.goTo w).freeIndex = s.freeIndex := rfl
@[simp] theorem State.goTo_reg (w : Word) (z : RegNum) : (s.goTo w).reg z = s.reg z := rfl
@[simp] theorem State.goTo_readByte (w : Word) (z : Nat) : (s.goTo w).readByte z = s.readByte z := rfl

/-! ### advance -/

@[simp] theorem State.advance_v : (s.advance).v = s.v := rfl
@[simp] theorem State.advance_idx : (s.advance).idx = s.idx := rfl
@[simp] theorem State.advance_pc : (s.advance).pc = s.pc + 2 := rfl
@[simp] theorem State.advance_sp : (s.advance).sp = s.sp := rfl
@[simp] theorem State.advance_stack : (s.advance).stack = s.stack := rfl
@[simp] theorem State.advance_dt : (s.advance).dt = s.dt := rfl
@[simp] theorem State.advance_st : (s.advance).st = s.st := rfl
@[simp] theorem State.advance_mem : (s.advance).mem = s.mem := rfl
@[simp] theorem State.advance_fb : (s.advance).fb = s.fb := rfl
@[simp] theorem State.advance_fault : (s.advance).fault = s.fault := rfl
@[simp] theorem State.advance_faultWord : (s.advance).faultWord = s.faultWord := rfl
@[simp] theorem State.advance_faultPc : (s.advance).faultPc = s.faultPc := rfl
@[simp] theorem State.advance_keys : (s.advance).keys = s.keys := rfl
@[simp] theorem State.advance_rnd : (s.advance).rnd = s.rnd := rfl
@[simp] theorem State.advance_result : (s.advance).result = some .ok := rfl
@[simp] theorem State.advance_awaitingLoad : (s.advance).awaitingLoad = s.awaitingLoad := rfl
@[simp] theorem State.advance_pending : (s.advance).pending = s.pending := rfl
@[simp] theorem State.advance_freeIndex : (s.advance).freeIndex = s.freeIndex := rfl
@[simp] theorem State.advance_reg (z : RegNum) : (s.advance).reg z = s.reg z := rfl
@[simp] theorem State.advance_readByte (z : Nat) : (s.advance).readByte z = s.readByte z := rfl

/-! ### skipIf -/

@[simp] theorem State.skipIf_v (c : Bool) : (s.skipIf c).v = s.v := rfl
@[simp] theorem State.skipIf_idx (c : Bool) : (s.skipIf c).idx = s.idx := rfl
@[simp] theorem State.skipIf_pc (c : Bool) : (s.skipIf c).pc = if c then s.pc + 4 else s.pc + 2 := rfl
@[simp] theorem State.skipIf_sp (c : Bool) : (s.skipIf c).sp = s.sp := rfl
@[simp] theorem State.skipIf_stack (c : Bool) : (s.skipIf c).stack = s.stack := rfl
@[simp] theorem State.skipIf_dt (c : Bool) : (s.skipIf c).dt = s.dt := rfl
@[simp] theorem State.skipIf_st (c : Bool) : (s.skipIf c).st = s.st := rfl
@[simp] theorem State.skipIf_mem (c : Bool) : (s.skipIf c).mem = s.mem := rfl
@[simp] theorem State.skipIf_fb (c : Bool) : (s.skipIf c).fb = s.fb := rfl
@[simp] theorem State.skipIf_fault (c : Bool) : (s.skipIf c).fault = s.fault := rfl
@[simp] theorem State.skipIf_faultWord (c : Bool) : (s.skipIf c).faultWord = s.faultWord := rfl
@[simp] theorem State.skipIf_faultPc (c : Bool) : (s.skipIf c).faultPc = s.faultPc := rfl
@[simp] theorem State.skipIf_keys (c : Bool) : (s.skipIf c).keys = s.keys := rfl
@[simp] theorem State.skipIf_rnd (c : Bool) : (s.skipIf c).rnd = s.rnd := rfl
@[simp] theorem State.skipIf_result (c : Bool) : (s.skipIf c).result = some .ok := rfl
@[simp] theorem State.skipIf_awaitingLoad (c : Bool) : (s.skipIf c).awaitingLoad = s.awaitingLoad := rfl
@[simp] theorem State.skipIf_pending (c : Bool) : (s.skipIf c).pending = s.pending := rfl
@[simp] theorem State.skipIf_freeIndex (c : Bool) : (s.skipIf c).freeIndex = s.freeIndex := rfl
@[simp] theorem State.skipIf_reg (c : Bool) (z : RegNum) : (s.skipIf c).reg z = s.reg z := rfl
@[simp] theorem State.skipIf_readByte (c : Bool) (z : Nat) : (s.skipIf c).readByte z = s.readByte z := rfl

/-! ### wait -/

@[simp] theorem State.wait_v : (s.wait).v = s.v := rfl
@[simp] theorem State.wait_idx : (s.wait).idx = s.idx := rfl
@[simp] theorem State.wait_pc : (s.wait).pc = s.pc := rfl
@[simp] theorem State.wait_sp : (s.wait).sp = s.sp := rfl
@[simp] theorem State.wait_stack : (s.wait).stack = s.stack := rfl
@[simp] theorem State.wait_dt : (s.wait).dt = s.dt := rfl
@[simp] theorem State.wait_st : (s.wait).st = s.st := rfl
@[simp] theorem State.wait_mem : (s.wait).mem = s.mem := rfl
@[simp] theorem State.wait_fb : (s.wait).fb = s.fb := rfl
@[simp] theorem State.wait_fault : (s.wait).fault = s.fault := rfl
@[simp] theorem State.wait_faultWord : (s.wait).faultWord = s.faultWord := rfl
@[simp] theorem State.wait_faultPc : (s.wait).faultPc = s.faultPc := rfl
@[simp] theorem State.wait_keys : (s.wait).keys = s.keys := rfl
@[simp] theorem State.wait_rnd : (s.wait).rnd = s.rnd := rfl
@[simp] theorem State.wait_result : (s.wait).result = some .waiting := rfl
@[simp] theorem State.wait_awaitingLoad : (s.wait).awaitingLoad = s.awaitingLoad := rfl
@[simp] theorem State.wait_pending : (s.wait).pending = s.pending := rfl
@[simp] theorem State.wait_freeIndex : (s.wait).freeIndex = s.freeIndex := rfl
@[simp] theorem State.wait_reg (z : RegNum) : (s.wait).reg z = s.reg z := rfl
@[simp] theorem State.wait_readByte (z : Nat) : (s.wait).readByte z = s.readByte z := rfl

/-! ### stayHalted -/

@[simp] theorem State.stayHalted_v (c : FatalCode) : (s.stayHalted c).v = s.v := rfl
@[simp] theorem State.stayHalted_idx (c : FatalCode) : (s.stayHalted c).idx = s.idx := rfl
@[simp] theorem State.stayHalted_pc (c : FatalCode) : (s.stayHalted c).pc = s.pc := rfl
@[simp] theorem State.stayHalted_sp (c : FatalCode) : (s.stayHalted c).sp = s.sp := rfl
@[simp] theorem State.stayHalted_stack (c : FatalCode) : (s.stayHalted c).stack = s.stack := rfl
@[simp] theorem State.stayHalted_dt (c : FatalCode) : (s.stayHalted c).dt = s.dt := rfl
@[simp] theorem State.stayHalted_st (c : FatalCode) : (s.stayHalted c).st = s.st := rfl
@[simp] theorem State.stayHalted_mem (c : FatalCode) : (s.stayHalted c).mem = s.mem := rfl
@[simp] theorem State.stayHalted_fb (c : FatalCode) : (s.stayHalted c).fb = s.fb := rfl
@[simp] theorem State.stayHalted_fault (c : FatalCode) : (s.stayHalted c).fault = s.fault := rfl
@[simp] theorem State.stayHalted_faultWord (c : FatalCode) : (s.stayHalted c).faultWord = s.faultWord := rfl
@[simp] theorem State.stayHalted_faultPc (c : FatalCode) : (s.stayHalted c).faultPc = s.faultPc := rfl
@[simp] theorem State.stayHalted_keys (c : FatalCode) : (s.stayHalted c).keys = s.keys := rfl
@[simp] theorem State.stayHalted_rnd (c : FatalCode) : (s.stayHalted c).rnd = s.rnd := rfl
@[simp] theorem State.stayHalted_result (c : FatalCode) : (s.stayHalted c).result = some (.halted c) := rfl
@[simp] theorem State.stayHalted_awaitingLoad (c : FatalCode) : (s.stayHalted c).awaitingLoad = s.awaitingLoad := rfl
@[simp] theorem State.stayHalted_pending (c : FatalCode) : (s.stayHalted c).pending = s.pending := rfl
@[simp] theorem State.stayHalted_freeIndex (c : FatalCode) : (s.stayHalted c).freeIndex = s.freeIndex := rfl
@[simp] theorem State.stayHalted_reg (c : FatalCode) (z : RegNum) : (s.stayHalted c).reg z = s.reg z := rfl
@[simp] theorem State.stayHalted_readByte (c : FatalCode) (z : Nat) : (s.stayHalted c).readByte z = s.readByte z := rfl

/-! ### raise -/

@[simp] theorem State.raise_v (c : FatalCode) (w : Word) : (s.raise c w).v = s.v := rfl
@[simp] theorem State.raise_idx (c : FatalCode) (w : Word) : (s.raise c w).idx = s.idx := rfl
@[simp] theorem State.raise_pc (c : FatalCode) (w : Word) : (s.raise c w).pc = s.pc := rfl
@[simp] theorem State.raise_sp (c : FatalCode) (w : Word) : (s.raise c w).sp = s.sp := rfl
@[simp] theorem State.raise_stack (c : FatalCode) (w : Word) : (s.raise c w).stack = s.stack := rfl
@[simp] theorem State.raise_dt (c : FatalCode) (w : Word) : (s.raise c w).dt = s.dt := rfl
@[simp] theorem State.raise_st (c : FatalCode) (w : Word) : (s.raise c w).st = s.st := rfl
@[simp] theorem State.raise_mem (c : FatalCode) (w : Word) : (s.raise c w).mem = s.mem := rfl
@[simp] theorem State.raise_fb (c : FatalCode) (w : Word) : (s.raise c w).fb = s.fb := rfl
@[simp] theorem State.raise_fault (c : FatalCode) (w : Word) : (s.raise c w).fault = some c := rfl
@[simp] theorem State.raise_faultWord (c : FatalCode) (w : Word) : (s.raise c w).faultWord = w := rfl
@[simp] theorem State.raise_faultPc (c : FatalCode) (w : Word) : (s.raise c w).faultPc = s.pc := rfl
@[simp] theorem State.raise_keys (c : FatalCode) (w : Word) : (s.raise c w).keys = s.keys := rfl
@[simp] theorem State.raise_rnd (c : FatalCode) (w : Word) : (s.raise c w).rnd = s.rnd := rfl
@[simp] theorem State.raise_result (c : FatalCode) (w : Word) : (s.raise c w).result = some (.fatal c w s.pc) := rfl
@[simp] theorem State.raise_awaitingLoad (c : FatalCode) (w : Word) : (s.raise c w).awaitingLoad = s.awaitingLoad := rfl
@[simp] theorem State.raise_pending (c : FatalCode) (w : Word) : (s.raise c w).pending = s.pending := rfl
@[simp] theorem State.raise_freeIndex (c : FatalCode) (w : Word) : (s.raise c w).freeIndex = s.freeIndex := rfl
@[simp] theorem State.raise_reg (c : FatalCode) (w : Word) (z : RegNum) : (s.raise c w).reg z = s.reg z := rfl
@[simp] theorem State.raise_readByte (c : FatalCode) (w : Word) (z : Nat) : (s.raise c w).readByte z = s.readByte z := rfl

/-! ### present -/

@[simp] theorem State.present_v (k : Keys) (r : Byte) : (s.present k r).v = s.v := rfl
@[simp] theorem State.present_idx (k : Keys) (r : Byte) : (s.present k r).idx = s.idx := rfl
@[simp] theorem State.present_pc (k : Keys) (r : Byte) : (s.present k r).pc = s.pc := rfl
@[simp] theorem State.present_sp (k : Keys) (r : Byte) : (s.present k r).sp = s.sp := rfl
@[simp] theorem State.present_stack (k : Keys) (r : Byte) : (s.present k r).stack = s.stack := rfl
@[simp] theorem State.present_dt (k : Keys) (r : Byte) : (s.present k r).dt = s.dt := rfl
@[simp] theorem State.present_st (k : Keys) (r : Byte) : (s.present k r).st = s.st := rfl
@[simp] theorem State.present_mem (k : Keys) (r : Byte) : (s.present k r).mem = s.mem := rfl
@[simp] theorem State.present_fb (k : Keys) (r : Byte) : (s.present k r).fb = s.fb := rfl
@[simp] theorem State.present_fault (k : Keys) (r : Byte) : (s.present k r).fault = s.fault := rfl
@[simp] theorem State.present_faultWord (k : Keys) (r : Byte) : (s.present k r).faultWord = s.faultWord := rfl
@[simp] theorem State.present_faultPc (k : Keys) (r : Byte) : (s.present k r).faultPc = s.faultPc := rfl
@[simp] theorem State.present_keys (k : Keys) (r : Byte) : (s.present k r).keys = k := rfl
@[simp] theorem State.present_rnd (k : Keys) (r : Byte) : (s.present k r).rnd = r := rfl
@[simp] theorem State.present_result (k : Keys) (r : Byte) : (s.present k r).result = s.result := rfl
@[simp] theorem State.present_awaitingLoad (k : Keys) (r : Byte) : (s.present k r).awaitingLoad = false := rfl
@[simp] theorem State.present_pending (k : Keys) (r : Byte) : (s.present k r).pending = s.pending := rfl
@[simp] theorem State.present_freeIndex (k : Keys) (r : Byte) : (s.present k r).freeIndex = s.freeIndex := rfl
@[simp] theorem State.present_reg (k : Keys) (r : Byte) (z : RegNum) : (s.present k r).reg z = s.reg z := rfl
@[simp] theorem State.present_readByte (k : Keys) (r : Byte) (z : Nat) : (s.present k r).readByte z = s.readByte z := rfl

/-! ### The parameterised operations at this hardware's values -/

@[simp] theorem State.unimplemented_hold (w : Word) : s.unimplemented .hold w = s.setResult (.unimplemented w s.pc) := rfl
@[simp] theorem State.logicFlag_false : s.logicFlag false = s := rfl
@[simp] theorem State.bumpIndex_false (n : Nat) : s.bumpIndex false n = s := rfl
@[simp] theorem shiftOperand_vx (x y : RegNum) : shiftOperand .vx s x y = s.reg x := rfl

end Machine

end Sys2Proof
end

