-- ==== Sys2Proof/Laws/Memory.lean ====
section
/-! SUPPORT. The laws of the memory array: a read after a write, and the canonical form that every operation keeps. -/

namespace Sys2Proof.Machine

namespace Memory

/-! ### Read after write -/

theorem lookup_insert (m : Memory) (a : Nat) (b : Byte) (c : Nat) :
    lookup (insert m a b) c = if c = a then some b else lookup m c := by
  induction m with
  | nil => by_cases h : c = a <;> simp [insert, lookup, h]
  | cons p m ih =>
    obtain ⟨d, e⟩ := p
    unfold insert
    split
    · by_cases h : c = a <;> simp [lookup, h]
    · split
      · subst_vars
        by_cases h : c = d <;> simp [lookup, h]
      · by_cases h : c = d
        · have : c ≠ a := by omega
          simp [lookup, h]; omega
        · simp [lookup, h, ih]

theorem lookup_erase (m : Memory) (a c : Nat) :
    lookup (erase m a) c = if c = a then none else lookup m c := by
  induction m with
  | nil => simp [erase, lookup]
  | cons p m ih =>
    obtain ⟨d, e⟩ := p
    unfold erase at ih ⊢
    by_cases hd : d = a
    · subst hd
      by_cases h : c = d <;> simp_all [lookup]
    · by_cases h : c = d
      · subst h; simp [hd, lookup]
      · simp [hd, lookup, h, ih]

/-- The basic law: a read after a write gives the byte written, and every other place is left alone. -/
@[simp] theorem read_write (m : Memory) (a : Nat) (b : Byte) (c : Nat) :
    read (write m a b) c = if c = a then b else read m c := by
  unfold read write
  by_cases hb : b = resetByte a
  · by_cases hc : c = a <;> simp [hb, lookup_erase, hc]
  · by_cases hc : c = a <;> simp [hb, lookup_insert, hc]

/-- A read after a multi-byte write: the byte at its place in the list, or what was there. -/
theorem read_writeBytes (m : Memory) (a : Nat) (bs : List Byte) (c : Nat) :
    read (writeBytes m a bs) c = if h : a ≤ c ∧ c < a + bs.length then bs[c - a]'(by omega) else read m c := by
  induction bs generalizing m a with
  | nil => have : ¬(a ≤ c ∧ c < a) := by omega
           simp [writeBytes, this]
  | cons b bs ih =>
    rw [writeBytes, ih]
    by_cases h1 : c = a
    · subst h1
      have : ¬(c + 1 ≤ c ∧ c < c + 1 + bs.length) := by omega
      simp
    · by_cases h2 : a + 1 ≤ c ∧ c < a + 1 + bs.length
      · have h3 : a ≤ c ∧ c < a + (b :: bs).length := by simp; omega
        rw [dif_pos h2, dif_pos h3]
        obtain ⟨k, hk⟩ : ∃ k, c - a = k + 1 := ⟨c - a - 1, by omega⟩
        have hk' : c - (a + 1) = k := by omega
        simp [hk, hk']
      · have h3 : ¬(a ≤ c ∧ c < a + (b :: bs).length) := by simp; omega
        rw [dif_neg h2, dif_neg h3]
        simp [h1]

@[simp] theorem length_readBytes (m : Memory) (a n : Nat) : (readBytes m a n).length = n := by
  simp [readBytes]

@[simp] theorem getElem_readBytes (m : Memory) (a n k : Nat) (h : k < (readBytes m a n).length) :
    (readBytes m a n)[k] = read m (a + k) := by
  simp [readBytes]

/-! ### The canonical form -/

/-- A canonical list from `hi` on is one from any lower bound on. -/
theorem wfFrom_mono {lo hi : Nat} (m : Memory) (h : lo ≤ hi) (hm : wfFrom hi m = true) : wfFrom lo m = true := by
  cases m with
  | nil => rfl
  | cons p m =>
    obtain ⟨a, b⟩ := p
    simp only [wfFrom, Bool.and_eq_true, decide_eq_true_eq] at hm ⊢
    exact ⟨⟨⟨by omega, hm.1.1.2⟩, hm.1.2⟩, hm.2⟩

theorem wfFrom_insert (m : Memory) (lo a : Nat) (b : Byte) (hm : wfFrom lo m = true) (hlo : lo ≤ a)
    (ha : a ≤ 0xFFF) (hb : b ≠ resetByte a) : wfFrom lo (insert m a b) = true := by
  induction m generalizing lo with
  | nil => simp [insert, wfFrom, hlo, ha, hb]
  | cons p m ih =>
    obtain ⟨c, d⟩ := p
    simp only [wfFrom, Bool.and_eq_true, decide_eq_true_eq] at hm
    unfold insert
    split
    · next h =>
      simp only [wfFrom, Bool.and_eq_true, decide_eq_true_eq]
      exact ⟨⟨⟨hlo, ha⟩, by simp [hb]⟩, ⟨⟨by omega, hm.1.1.2⟩, hm.1.2⟩, hm.2⟩
    · split
      · next h =>
        subst h
        simp only [wfFrom, Bool.and_eq_true, decide_eq_true_eq]
        exact ⟨⟨⟨hlo, ha⟩, by simp [hb]⟩, hm.2⟩
      · simp only [wfFrom, Bool.and_eq_true, decide_eq_true_eq]
        exact ⟨⟨⟨hm.1.1.1, hm.1.1.2⟩, hm.1.2⟩, ih (c + 1) hm.2 (by omega)⟩

theorem wfFrom_erase (m : Memory) (lo a : Nat) (hm : wfFrom lo m = true) : wfFrom lo (erase m a) = true := by
  induction m generalizing lo with
  | nil => rfl
  | cons p m ih =>
    obtain ⟨c, d⟩ := p
    simp only [wfFrom, Bool.and_eq_true, decide_eq_true_eq] at hm
    unfold erase at ih ⊢
    by_cases h : c = a
    · simpa [h] using wfFrom_mono _ (by omega) (ih (c + 1) hm.2)
    · simp only [List.filter_cons, bne_iff_ne, ne_eq, h, not_false_eq_true, if_true]
      simp only [wfFrom, Bool.and_eq_true, decide_eq_true_eq]
      exact ⟨hm.1, ih (c + 1) hm.2⟩

/-- Every write to an address of `MEM` keeps the canonical form. -/
theorem wf_write (m : Memory) (a : Nat) (b : Byte) (hm : wf m = true) (ha : a ≤ 0xFFF) : wf (write m a b) = true := by
  unfold write
  split
  · exact wfFrom_erase m 0 a hm
  · next hb => exact wfFrom_insert m 0 a b hm (by omega) ha hb

/-- So does a multi-byte write whose range lies in `MEM`. -/
theorem wf_writeBytes (m : Memory) (a : Nat) (bs : List Byte) (hm : wf m = true) (ha : a + bs.length ≤ 0x1000) :
    wf (writeBytes m a bs) = true := by
  induction bs generalizing m a with
  | nil => exact hm
  | cons b bs ih =>
    simp only [List.length_cons] at ha
    exact ih _ _ (wf_write m a b hm (by omega)) (by omega)

/-- The memory of the reset state has the canonical form. -/
theorem wf_reset : wf State.reset.mem = true := rfl

/-- The lookup of an address below every entry of a canonical list. -/
theorem lookup_lt (m : Memory) (lo c : Nat) (hm : wfFrom lo m = true) (h : c < lo) : lookup m c = none := by
  induction m generalizing lo with
  | nil => rfl
  | cons p m ih =>
    obtain ⟨a, b⟩ := p
    simp only [wfFrom, Bool.and_eq_true, decide_eq_true_eq] at hm
    have : c ≠ a := by omega
    simpa [lookup, this] using ih (a + 1) hm.2 (by omega)

end Memory

end Sys2Proof.Machine
end

