-- ==== Sys2Proof/Laws/Ops.lean ====
section
/-! SUPPORT. One lemma per shared operation that says once what it can do; provers cite these and do not unfold the
operations. -/

namespace Sys2Proof.Machine

/-! ### Registers -/

/-- Register read after register write. -/
theorem State.reg_setReg (s : State) (x y : RegNum) (b : Byte) :
    (s.setReg x b).reg y = if y = x then b else s.reg y := by
  unfold State.reg State.setReg
  by_cases h : y = x
  · subst h; simp
  · have : x.toNat ≠ y.toNat := fun e => h (BitVec.eq_of_toNat_eq e.symm)
    simp [h, this]

@[simp] theorem State.reg_setReg_self (s : State) (x : RegNum) (b : Byte) : (s.setReg x b).reg x = b := by
  simp [State.reg_setReg]

theorem State.reg_setReg_ne (s : State) {x y : RegNum} (b : Byte) (h : y ≠ x) : (s.setReg x b).reg y = s.reg y := by
  simp [State.reg_setReg, h]

theorem State.reg_setFlag (s : State) (f : Bool) (y : RegNum) :
    (s.setFlag f).reg y = if y = VF then flagByte f else s.reg y := State.reg_setReg s VF y _

/-- The flag is written last (R173): it is what `VF` holds, also when `x = 15`. -/
theorem State.reg_setRegFlag (s : State) (x : RegNum) (r : Byte) (f : Bool) (y : RegNum) :
    (s.setRegFlag x r f).reg y = if y = VF then flagByte f else if y = x then r else s.reg y := by
  rw [State.setRegFlag, State.reg_setFlag, State.reg_setReg]

/-- The bytes `setRegsFrom` writes, by register number. -/
theorem State.reg_setRegsFrom (s : State) (k : Nat) (bs : List Byte) (hk : k + bs.length ≤ 16) (r : RegNum) :
    (s.setRegsFrom k bs).reg r =
      if h : k ≤ r.toNat ∧ r.toNat < k + bs.length then bs[r.toNat - k]'(by omega) else s.reg r := by
  induction bs generalizing s k with
  | nil =>
    have : ¬(k ≤ r.toNat ∧ r.toNat < k) := by omega
    simp [State.setRegsFrom, this]
  | cons b bs ih =>
    simp only [List.length_cons] at hk
    rw [State.setRegsFrom, ih _ _ (by omega), State.reg_setReg]
    by_cases h1 : r.toNat = k
    · have hr : r = BitVec.ofNat 4 k := by
        apply BitVec.eq_of_toNat_eq; rw [BitVec.toNat_ofNat, ← h1]; have := r.isLt; omega
      have h2 : ¬(k + 1 ≤ r.toNat ∧ r.toNat < k + 1 + bs.length) := by omega
      have h3 : k ≤ r.toNat ∧ r.toNat < k + (b :: bs).length := by simp; omega
      rw [dif_neg h2, dif_pos h3, if_pos hr]
      simp [h1]
    · have hr : r ≠ BitVec.ofNat 4 k := by
        intro e; apply h1; rw [e, BitVec.toNat_ofNat]; omega
      by_cases h2 : k + 1 ≤ r.toNat ∧ r.toNat < k + 1 + bs.length
      · have h3 : k ≤ r.toNat ∧ r.toNat < k + (b :: bs).length := by simp; omega
        rw [dif_pos h2, dif_pos h3]
        obtain ⟨j, hj⟩ : ∃ j, r.toNat - k = j + 1 := ⟨r.toNat - k - 1, by omega⟩
        have hj' : r.toNat - (k + 1) = j := by omega
        simp [hj, hj']
      · have h3 : ¬(k ≤ r.toNat ∧ r.toNat < k + (b :: bs).length) := by simp; omega
        rw [dif_neg h2, dif_neg h3, if_neg hr]

/-- `setRegsFrom` writes registers and nothing else. -/
theorem State.setRegsFrom_eq (s : State) (k : Nat) (bs : List Byte) :
    s.setRegsFrom k bs = { s with v := (s.setRegsFrom k bs).v } := by
  induction bs generalizing s k with
  | nil => rfl
  | cons b bs ih => rw [State.setRegsFrom, ih]; rfl

@[simp] theorem State.length_regsUpTo (s : State) (n : Nat) : (s.regsUpTo n).length = n := by
  simp [State.regsUpTo]

@[simp] theorem State.getElem_regsUpTo (s : State) (n k : Nat) (h : k < (s.regsUpTo n).length) :
    (s.regsUpTo n)[k] = s.reg (BitVec.ofNat 4 k) := by
  simp [State.regsUpTo]

/-! ### The range check and the checked accesses (R67) -/

theorem accessInRange_iff (base len : Nat) : accessInRange base len = true ↔ len = 0 ∨ base + len - 1 ≤ 0xFFF := by
  simp [accessInRange]

/-- A checked load answers the bytes, iff the range is in `MEM`. -/
theorem State.loadBytes_eq_some_iff (s : State) (base len : Nat) (bs : List Byte) :
    s.loadBytes base len = some bs ↔
      (len = 0 ∨ base + len - 1 ≤ 0xFFF) ∧ bs = Memory.readBytes s.mem base len := by
  unfold State.loadBytes
  split
  · next h => exact ⟨fun e => ⟨(accessInRange_iff _ _).1 h, (Option.some.inj e).symm⟩, fun e => by rw [e.2]⟩
  · next h => exact ⟨nofun, fun e => absurd ((accessInRange_iff _ _).2 e.1) h⟩

theorem State.loadBytes_eq_none_iff (s : State) (base len : Nat) :
    s.loadBytes base len = none ↔ 1 ≤ len ∧ base + len - 1 > 0xFFF := by
  unfold State.loadBytes
  split
  · next h => have := (accessInRange_iff _ _).1 h; simp; omega
  · next h => have := mt (accessInRange_iff _ _).2 h; simp; omega

/-- A checked store answers the state with the bytes written, iff the range is in `MEM`. -/
theorem State.storeBytes_eq_some_iff (s t : State) (base : Nat) (bs : List Byte) :
    s.storeBytes base bs = some t ↔
      (bs.length = 0 ∨ base + bs.length - 1 ≤ 0xFFF) ∧ t = s.setMem (Memory.writeBytes s.mem base bs) := by
  unfold State.storeBytes
  split
  · next h => exact ⟨fun e => ⟨(accessInRange_iff _ _).1 h, (Option.some.inj e).symm⟩, fun e => by rw [e.2]⟩
  · next h => exact ⟨nofun, fun e => absurd ((accessInRange_iff _ _).2 e.1) h⟩

theorem State.storeBytes_eq_none_iff (s : State) (base : Nat) (bs : List Byte) :
    s.storeBytes base bs = none ↔ 1 ≤ bs.length ∧ base + bs.length - 1 > 0xFFF := by
  unfold State.storeBytes
  split
  · next h => have := (accessInRange_iff _ _).1 h; simp; omega
  · next h => have := mt (accessInRange_iff _ _).2 h; simp; omega

/-- Reading a byte after a store. -/
theorem State.readByte_setMem_writeBytes (s : State) (base : Nat) (bs : List Byte) (c : Nat) :
    (s.setMem (Memory.writeBytes s.mem base bs)).readByte c =
      if h : base ≤ c ∧ c < base + bs.length then bs[c - base]'(by omega) else s.readByte c :=
  Memory.read_writeBytes s.mem base bs c

@[simp] theorem length_bcdDigits (b : Byte) : (bcdDigits b).length = 3 := rfl

/-! ### The call stack (R140, R142) -/

/-- What a push does: the slot at `SP` takes the word, `SP` goes up by one, nothing else changes; none iff `SP = 16`. -/
theorem State.push_eq_some_iff (s t : State) (w : Word) :
    s.push w = some t ↔ ∃ h : s.sp.val < 16,
      t = { s with stack := s.stack.set s.sp.val w h, sp := ⟨s.sp.val + 1, by omega⟩ } := by
  unfold State.push
  by_cases h : s.sp.val < 16 <;> simp [h, eq_comm]

theorem State.push_eq_none_iff (s : State) (w : Word) : s.push w = none ↔ s.sp.val = 16 := by
  have := s.sp.isLt
  unfold State.push
  by_cases h : s.sp.val < 16 <;> simp [h] <;> omega

/-- What a pop does: the slot below `SP`, and `SP` goes down by one; none iff `SP = 0`. -/
theorem State.pop_eq_some_iff (s t : State) (w : Word) :
    s.pop = some (w, t) ↔ ∃ h : 0 < s.sp.val,
      w = s.stack[s.sp.val - 1]'(by have := s.sp.isLt; omega) ∧
        t = { s with sp := ⟨s.sp.val - 1, by have := s.sp.isLt; omega⟩ } := by
  unfold State.pop
  by_cases h : 0 < s.sp.val <;> simp [h, eq_comm]

theorem State.pop_eq_none_iff (s : State) : s.pop = none ↔ s.sp.val = 0 := by
  unfold State.pop
  by_cases h : 0 < s.sp.val <;> simp [h] <;> omega

/-! ### Fetch (R68, R122) -/

theorem State.fetch_eq_none_iff (s : State) : s.fetch = none ↔ 0xFFF ≤ s.pc.toNat := by
  unfold State.fetch
  split <;> simp <;> omega

theorem State.fetch_eq_some_iff (s : State) (w : Word) :
    s.fetch = some w ↔
      s.pc.toNat ≤ 0xFFE ∧ w = wordOfBytes (s.readByte s.pc.toNat) (s.readByte (s.pc.toNat + 1)) := by
  unfold State.fetch
  split
  · simp; omega
  · simp [eq_comm]; omega

/-! ### Keys (R200, R206) -/

theorem keyIndex_eq_none_iff (b : Byte) : keyIndex b = none ↔ b.toNat > 15 := by
  unfold keyIndex; split <;> simp <;> omega

theorem keyIndex_eq_some_iff (b : Byte) (k : Nat) : keyIndex b = some k ↔ b.toNat ≤ 15 ∧ k = b.toNat := by
  unfold keyIndex; split <;> simp <;> omega

/-! ### The CYCLE (R120): its four ways, in the order of R228 -/

/-- A halted core. -/
theorem cycle_of_halted (keys : Keys) (rnd : Byte) (s : State) {c : FatalCode} (h : s.fault = some c) :
    cycle keys rnd s = .next ((s.present keys rnd).stayHalted c) := by
  simp [cycle, h]

/-- A running core whose `pc` cannot be fetched from. -/
theorem cycle_of_no_fetch (keys : Keys) (rnd : Byte) (s : State) (h : s.fault = none) (hf : s.fetch = none) :
    cycle keys rnd s = .next ((s.present keys rnd).raise .fetchOutOfRange 0x0000) := by
  have : (s.present keys rnd).fetch = none := hf
  simp [cycle, h, this]

/-- A running core with an instruction at `pc`. -/
theorem cycle_of_instr (keys : Keys) (rnd : Byte) (s : State) {w : Word} {i : Instr} (h : s.fault = none)
    (hf : s.fetch = some w) (hd : decode w = .ok i) : cycle keys rnd s = exec i (s.present keys rnd) := by
  have : (s.present keys rnd).fetch = some w := hf
  simp [cycle, h, this, hd]

/-- A running core with a word of no row at `pc`. -/
theorem cycle_of_reject (keys : Keys) (rnd : Byte) (s : State) {w : Word} {e : Reject} (h : s.fault = none)
    (hf : s.fetch = some w) (hd : decode w = .error e) :
    cycle keys rnd s = .next ((s.present keys rnd).setResult (.unimplemented w s.pc)) := by
  have : (s.present keys rnd).fetch = some w := hf
  simp [cycle, h, this, hd]

end Sys2Proof.Machine
end

