-- ==== Sys2Proof/Laws/Display.lean ====
section
/-! SUPPORT. The laws of the framebuffer cells (R10, R34) and of one sprite pixel (R191). -/

namespace Sys2Proof.Machine

theorem getLsbD_setCell (r : BitVec 64) (col : Nat) (b : Bool) (c : Nat) (hc : c < 64) :
    (setCell r col b).getLsbD c = if c = col then b else r.getLsbD c := by
  by_cases h : c = col
  · subst h; cases b <;> simp [setCell, hc]
  · have h' : col ≠ c := fun e => h e.symm
    cases b
    · simp [setCell, h, hc]
    · simp [setCell, h, h']

/-- A cell read after a cell written: the value written, and every other cell is left alone. -/
@[simp] theorem fbGet_fbSet (f : Frame) (i : CellIndex) (b : Bool) (j : CellIndex) :
    fbGet (fbSet f i b) j = if j = i then b else fbGet f j := by
  have hi := i.isLt
  have hj := j.isLt
  unfold fbGet fbSet
  rw [Vector.getElem_set]
  by_cases hr : i.val / 64 = j.val / 64
  · rw [if_pos hr, getLsbD_setCell _ _ _ _ (by omega)]
    by_cases hc : j.val % 64 = i.val % 64
    · have : j = i := Fin.ext (by omega)
      simp [this]
    · have : j ≠ i := fun e => hc (by rw [e])
      simp [hc, this, hr]
  · have : j ≠ i := fun e => hr (by rw [e])
    simp [hr, this]

@[simp] theorem fbGet_fbClear (i : CellIndex) : fbGet fbClear i = false := by
  have := i.isLt
  simp [fbGet, fbClear]

/-- Two framebuffers with equal cells are equal. -/
theorem frame_ext {f g : Frame} (h : ∀ i, fbGet f i = fbGet g i) : f = g := by
  apply Vector.ext
  intro r hr
  apply BitVec.eq_of_getLsbD_eq
  intro c hc
  have := h ⟨r * 64 + c, by omega⟩
  have h1 : (r * 64 + c) / 64 = r := by omega
  have h2 : (r * 64 + c) % 64 = c := by omega
  simpa [fbGet, h1, h2] using this

/-- What one sprite pixel does to the cells: the pixel's own cell is XORed with the bit. -/
@[simp] theorem fbGet_plotPixel (cv : Canvas) (col row : Nat) (bit : Bool) (j : CellIndex) :
    fbGet (plotPixel cv col row bit).frame j =
      if j = cellIndex row col then (fbGet cv.frame j ^^ bit) else fbGet cv.frame j := by
  by_cases h : j = cellIndex row col <;> simp [plotPixel, h]

/-- What one sprite pixel does to the collision flag: a lit cell under a 1 bit sets it. -/
@[simp] theorem hit_plotPixel (cv : Canvas) (col row : Nat) (bit : Bool) :
    (plotPixel cv col row bit).hit = (cv.hit || (bit && fbGet cv.frame (cellIndex row col))) := rfl

/-- Two positions fall on the same cell iff they agree modulo the screen size (R191). -/
theorem cellIndex_eq_iff (r c r' c' : Nat) :
    cellIndex r c = cellIndex r' c' ↔ r % 32 = r' % 32 ∧ c % 64 = c' % 64 := by
  simp only [cellIndex, Fin.mk.injEq]
  omega

/-- The columns `cs` of one sprite row, in any order without repeats. -/
theorem plotCols_spec (x0 row : Nat) (b : Byte) (cs : List Nat) (hnd : cs.Nodup) (hlt : ∀ c ∈ cs, c < 8) (cv : Canvas) :
    let out := cs.foldl (fun cv c => plotPixel cv (x0 + c) row (b.getLsbD (7 - c))) cv
    (∀ c ∈ cs, fbGet out.frame (cellIndex row (x0 + c)) =
      (fbGet cv.frame (cellIndex row (x0 + c)) ^^ b.getLsbD (7 - c))) ∧
    (∀ j, (∀ c ∈ cs, j ≠ cellIndex row (x0 + c)) → fbGet out.frame j = fbGet cv.frame j) ∧
    (out.hit = true ↔ cv.hit = true ∨
      ∃ c ∈ cs, b.getLsbD (7 - c) = true ∧ fbGet cv.frame (cellIndex row (x0 + c)) = true) := by
  induction cs generalizing cv with
  | nil => simp
  | cons c cs ih =>
    rw [List.nodup_cons] at hnd
    have hne : ∀ d ∈ cs, cellIndex row (x0 + d) ≠ cellIndex row (x0 + c) := by
      intro d hd e
      have h1 := (cellIndex_eq_iff _ _ _ _).1 e
      have h2 := hlt d (by simp [hd])
      have h3 := hlt c (by simp)
      exact hnd.1 ((show d = c by omega) ▸ hd)
    obtain ⟨ih1, ih2, ih3⟩ := ih hnd.2 (fun d hd => hlt d (by simp [hd]))
      (plotPixel cv (x0 + c) row (b.getLsbD (7 - c)))
    simp only [List.foldl_cons]
    refine ⟨?_, ?_, ?_⟩
    · intro d hd
      rcases List.mem_cons.1 hd with rfl | hd
      · rw [ih2 _ (fun e he => (hne e he).symm), fbGet_plotPixel, if_pos rfl]
      · rw [ih1 d hd, fbGet_plotPixel, if_neg (hne d hd)]
    · intro j hj
      rw [ih2 j (fun d hd => hj d (by simp [hd])), fbGet_plotPixel, if_neg (hj c (by simp))]
    · rw [ih3, hit_plotPixel, Bool.or_eq_true, Bool.and_eq_true, or_assoc]
      refine or_congr_right ⟨?_, ?_⟩
      · rintro (h | ⟨d, hd, h1, h2⟩)
        · exact ⟨c, by simp, h⟩
        · rw [fbGet_plotPixel, if_neg (hne d hd)] at h2
          exact ⟨d, by simp [hd], h1, h2⟩
      · rintro ⟨d, hd, h1, h2⟩
        rcases List.mem_cons.1 hd with rfl | hd
        · exact .inl ⟨h1, h2⟩
        · exact .inr ⟨d, hd, h1, by rw [fbGet_plotPixel, if_neg (hne d hd)]; exact h2⟩

/-- What one sprite row does (R191): each of its 8 pixels is XORed into its cell, every other cell is left alone, and a
collision is a lit cell under a 1 bit. -/
theorem plotRow_spec (cv : Canvas) (x0 row : Nat) (b : Byte) :
    (∀ c, c < 8 → fbGet (plotRow cv x0 row b).frame (cellIndex row (x0 + c)) =
      (fbGet cv.frame (cellIndex row (x0 + c)) ^^ b.getLsbD (7 - c))) ∧
    (∀ j, (∀ c, c < 8 → j ≠ cellIndex row (x0 + c)) → fbGet (plotRow cv x0 row b).frame j = fbGet cv.frame j) ∧
    ((plotRow cv x0 row b).hit = true ↔ cv.hit = true ∨
      ∃ c, c < 8 ∧ b.getLsbD (7 - c) = true ∧ fbGet cv.frame (cellIndex row (x0 + c)) = true) := by
  have h := plotCols_spec x0 row b (List.range 8) List.nodup_range (fun c hc => List.mem_range.1 hc) cv
  unfold plotRow
  simpa only [List.mem_range] using h

/-- What a whole sprite of at most 32 rows does (R191): each pixel is XORed into its cell, every other cell is left alone,
and the collision flag says that some lit cell lay under a 1 bit. No cell is touched twice (R191 c). -/
theorem plotSprite_spec (bs : List Byte) (cv : Canvas) (x0 row : Nat) (hlen : bs.length ≤ 32) :
    (∀ r c, (hr : r < bs.length) → c < 8 → fbGet (plotSprite cv x0 row bs).frame (cellIndex (row + r) (x0 + c)) =
      (fbGet cv.frame (cellIndex (row + r) (x0 + c)) ^^ bs[r].getLsbD (7 - c))) ∧
    (∀ j, (∀ r c, r < bs.length → c < 8 → j ≠ cellIndex (row + r) (x0 + c)) →
      fbGet (plotSprite cv x0 row bs).frame j = fbGet cv.frame j) ∧
    ((plotSprite cv x0 row bs).hit = true ↔ cv.hit = true ∨
      ∃ r c, ∃ hr : r < bs.length, c < 8 ∧ bs[r].getLsbD (7 - c) = true ∧
        fbGet cv.frame (cellIndex (row + r) (x0 + c)) = true) := by
  induction bs generalizing cv row with
  | nil => simp [plotSprite]
  | cons b bs ih =>
    simp only [List.length_cons] at hlen
    obtain ⟨r1, r2, r3⟩ := plotRow_spec cv x0 row b
    obtain ⟨ih1, ih2, ih3⟩ := ih (plotRow cv x0 row b) (row + 1) (by omega)
    have hne : ∀ r c d, r < bs.length → cellIndex (row + 1 + r) (x0 + c) ≠ cellIndex row (x0 + d) := by
      intro r c d hr e
      have := (cellIndex_eq_iff _ _ _ _).1 e
      omega
    have hadd : ∀ r, row + (r + 1) = row + 1 + r := fun r => by omega
    simp only [plotSprite]
    refine ⟨?_, ?_, ?_⟩
    · intro r c hr hc
      cases r with
      | zero =>
        simp only [Nat.add_zero]
        rw [ih2 _ (fun r d hr _ => (hne r d c hr).symm), r1 c hc]; rfl
      | succ r =>
        simp only [List.length_cons, Nat.add_lt_add_iff_right] at hr
        rw [hadd r, ih1 r c hr hc, r2 _ (fun d _ => hne r c d hr)]; rfl
    · intro j hj
      rw [ih2 j, r2 j]
      · intro c hc; simpa using hj 0 c (by simp) hc
      · intro r c hr hc; rw [← hadd r]; exact hj (r + 1) c (by simpa using hr) hc
    · rw [ih3, r3, or_assoc]
      refine or_congr_right ⟨?_, ?_⟩
      · rintro (⟨c, hc, h1, h2⟩ | ⟨r, c, hr, hc, h1, h2⟩)
        · exact ⟨0, c, by simp, hc, h1, h2⟩
        · rw [r2 _ (fun d _ => hne r c d hr)] at h2
          exact ⟨r + 1, c, by simpa using hr, hc, h1, by rw [hadd r]; exact h2⟩
      · rintro ⟨r, c, hr, hc, h1, h2⟩
        cases r with
        | zero => exact .inl ⟨c, hc, h1, h2⟩
        | succ r =>
          simp only [List.length_cons, Nat.add_lt_add_iff_right] at hr
          rw [hadd r] at h2
          exact .inr ⟨r, c, hr, hc, h1, by rw [r2 _ (fun d _ => hne r c d hr)]; exact h2⟩

end Sys2Proof.Machine
end

