-- ==== Sys2Proof/Laws/Encoding.lean ====
section
/-! SUPPORT. The fields (R92) of a word built in each format of R91, and the value of a word in terms of its fields. -/

namespace Sys2Proof

/-- The value of two fields side by side. -/
theorem toNat_append_eq {m n : Nat} (a : BitVec m) (b : BitVec n) : (a ++ b).toNat = a.toNat * 2 ^ n + b.toNat := by
  rw [BitVec.toNat_append, Nat.shiftLeft_eq, Nat.mul_comm, Nat.two_pow_add_eq_or_of_lt b.isLt]

theorem toNat_familyOf (w : Word) : (familyOf w).toNat = w.toNat / 4096 % 16 := by
  simp [familyOf, BitVec.extractLsb'_toNat, Nat.shiftRight_eq_div_pow]
theorem toNat_fieldX (w : Word) : (fieldX w).toNat = w.toNat / 256 % 16 := by
  simp [fieldX, BitVec.extractLsb'_toNat, Nat.shiftRight_eq_div_pow]
theorem toNat_fieldY (w : Word) : (fieldY w).toNat = w.toNat / 16 % 16 := by
  simp [fieldY, BitVec.extractLsb'_toNat, Nat.shiftRight_eq_div_pow]
theorem toNat_fieldN (w : Word) : (fieldN w).toNat = w.toNat % 16 := by
  simp [fieldN, BitVec.extractLsb'_toNat]
theorem toNat_fieldKK (w : Word) : (fieldKK w).toNat = w.toNat % 256 := by
  simp [fieldKK, BitVec.extractLsb'_toNat]
theorem toNat_fieldNNN (w : Word) : (fieldNNN w).toNat = w.toNat % 4096 := by
  simp [fieldNNN, BitVec.extractLsb'_toNat]

section formats

variable (f x y n : BitVec 4) (kk : Byte) (nnn : Addr)

/-! ### Format XKK, and X8 with the sub-selector as `kk` -/

@[simp] theorem familyOf_xkk : familyOf (f ++ x ++ kk) = f := by
  apply BitVec.eq_of_toNat_eq
  rw [toNat_familyOf, toNat_append_eq, toNat_append_eq]
  have := f.isLt; have := x.isLt; have := kk.isLt; omega
@[simp] theorem fieldX_xkk : fieldX (f ++ x ++ kk) = x := by
  apply BitVec.eq_of_toNat_eq
  rw [toNat_fieldX, toNat_append_eq, toNat_append_eq]
  have := f.isLt; have := x.isLt; have := kk.isLt; omega
@[simp] theorem fieldKK_xkk : fieldKK (f ++ x ++ kk) = kk := by
  apply BitVec.eq_of_toNat_eq
  rw [toNat_fieldKK, toNat_append_eq, toNat_append_eq]
  have := f.isLt; have := x.isLt; have := kk.isLt; omega

/-! ### Formats XY4 and XYN -/

@[simp] theorem familyOf_xyn : familyOf (f ++ x ++ y ++ n) = f := by
  apply BitVec.eq_of_toNat_eq
  rw [toNat_familyOf, toNat_append_eq, toNat_append_eq, toNat_append_eq]
  have := f.isLt; have := x.isLt; have := y.isLt; have := n.isLt; omega
@[simp] theorem fieldX_xyn : fieldX (f ++ x ++ y ++ n) = x := by
  apply BitVec.eq_of_toNat_eq
  rw [toNat_fieldX, toNat_append_eq, toNat_append_eq, toNat_append_eq]
  have := f.isLt; have := x.isLt; have := y.isLt; have := n.isLt; omega
@[simp] theorem fieldY_xyn : fieldY (f ++ x ++ y ++ n) = y := by
  apply BitVec.eq_of_toNat_eq
  rw [toNat_fieldY, toNat_append_eq, toNat_append_eq, toNat_append_eq]
  have := f.isLt; have := x.isLt; have := y.isLt; have := n.isLt; omega
@[simp] theorem fieldN_xyn : fieldN (f ++ x ++ y ++ n) = n := by
  apply BitVec.eq_of_toNat_eq
  rw [toNat_fieldN, toNat_append_eq, toNat_append_eq, toNat_append_eq]
  have := f.isLt; have := x.isLt; have := y.isLt; have := n.isLt; omega

/-! ### Format NNN -/

@[simp] theorem familyOf_nnn : familyOf (f ++ nnn) = f := by
  apply BitVec.eq_of_toNat_eq
  rw [toNat_familyOf, toNat_append_eq]
  have := f.isLt; have := nnn.isLt; omega
@[simp] theorem fieldNNN_nnn : fieldNNN (f ++ nnn) = nnn := by
  apply BitVec.eq_of_toNat_eq
  rw [toNat_fieldNNN, toNat_append_eq]
  have := f.isLt; have := nnn.isLt; omega

end formats

/-- A word is its two bytes (R60). -/
theorem wordOfBytes_bytes (w : Word) : wordOfBytes (w.extractLsb' 8 8) (w.extractLsb' 0 8) = w := by
  apply BitVec.eq_of_toNat_eq
  rw [wordOfBytes, toNat_append_eq]
  simp only [BitVec.extractLsb'_toNat, Nat.shiftRight_eq_div_pow]
  have := w.isLt
  omega

/-- Decoding the two bytes a word is stored as is decoding the word. -/
theorem decodeBytes_bytesOfWord (w : Word) (rest : List Byte) :
    decodeBytes (bytesOfWord w ++ rest) =
      match decode w with
      | .ok i => .ok (i, rest)
      | .error e => .error e := by
  cases h : decode w <;> simp [bytesOfWord, decodeBytes, wordOfBytes_bytes, h]

/-! ### A word from its fields, format by format -/

theorem eq_append_nnn (w : Word) : w = familyOf w ++ fieldNNN w := by
  apply BitVec.eq_of_toNat_eq
  rw [toNat_append_eq, toNat_familyOf, toNat_fieldNNN]
  have := w.isLt
  omega

theorem eq_append_xkk (w : Word) : w = familyOf w ++ fieldX w ++ fieldKK w := by
  apply BitVec.eq_of_toNat_eq
  rw [toNat_append_eq, toNat_append_eq, toNat_familyOf, toNat_fieldX, toNat_fieldKK]
  have := w.isLt
  omega

theorem eq_append_xyn (w : Word) : w = familyOf w ++ fieldX w ++ fieldY w ++ fieldN w := by
  apply BitVec.eq_of_toNat_eq
  rw [toNat_append_eq, toNat_append_eq, toNat_append_eq, toNat_familyOf, toNat_fieldX, toNat_fieldY, toNat_fieldN]
  have := w.isLt
  omega

/-! ### The first level of the dispatch, family by family (R94) -/

section families

variable {w : Word}

theorem decode_family_0 (h : familyOf w = 0x0) : decode w = decodeLiteral w := by
  simp [decode, h]
theorem decode_family_1 (h : familyOf w = 0x1) : decode w = .ok (.jump (fieldNNN w)) := by
  simp [decode, h]
theorem decode_family_2 (h : familyOf w = 0x2) : decode w = .ok (.call (fieldNNN w)) := by
  simp [decode, h]
theorem decode_family_3 (h : familyOf w = 0x3) : decode w = .ok (.skipEqImm (fieldX w) (fieldKK w)) := by
  simp [decode, h]
theorem decode_family_4 (h : familyOf w = 0x4) : decode w = .ok (.skipNeqImm (fieldX w) (fieldKK w)) := by
  simp [decode, h]
theorem decode_family_5 (h : familyOf w = 0x5) : decode w = .ok (.skipEqReg (fieldX w) (fieldY w)) := by
  simp [decode, h]
theorem decode_family_6 (h : familyOf w = 0x6) : decode w = .ok (.loadImm (fieldX w) (fieldKK w)) := by
  simp [decode, h]
theorem decode_family_7 (h : familyOf w = 0x7) : decode w = .ok (.addImm (fieldX w) (fieldKK w)) := by
  simp [decode, h]
theorem decode_family_8 (h : familyOf w = 0x8) : decode w = decodeReg w := by
  simp [decode, h]
theorem decode_family_9 (h : familyOf w = 0x9) : decode w = .ok (.skipNeqReg (fieldX w) (fieldY w)) := by
  simp [decode, h]
theorem decode_family_A (h : familyOf w = 0xA) : decode w = .ok (.setIndex (fieldNNN w)) := by
  simp [decode, h]
theorem decode_family_B (h : familyOf w = 0xB) : decode w = .ok (.jumpOffset (fieldNNN w)) := by
  simp [decode, h]
theorem decode_family_C (h : familyOf w = 0xC) : decode w = .ok (.random (fieldX w) (fieldKK w)) := by
  simp [decode, h]
theorem decode_family_D (h : familyOf w = 0xD) : decode w = .ok (.draw (fieldX w) (fieldY w) (fieldN w)) := by
  simp [decode, h]
theorem decode_family_E (h : familyOf w = 0xE) : decode w = decodeKey w := by
  simp [decode, h]
theorem decode_family_F (h : familyOf w = 0xF) : decode w = decodeMisc w := by
  simp [decode, h]

end families

/-- The sixteen families. -/
theorem family_cases (f : BitVec 4) :
    f = 0x0 ∨ f = 0x1 ∨ f = 0x2 ∨ f = 0x3 ∨ f = 0x4 ∨ f = 0x5 ∨ f = 0x6 ∨ f = 0x7 ∨ f = 0x8 ∨ f = 0x9 ∨ f = 0xA ∨
      f = 0xB ∨ f = 0xC ∨ f = 0xD ∨ f = 0xE ∨ f = 0xF := by
  revert f; decide

end Sys2Proof
end

