-- ==== Sys2Proof/Laws/Exec.lean ====
section
/-! SUPPORT. One equation per way an instruction with more than one way can end, so that later proofs do not unfold the
shared operations; and the frame lemmas of the updates most instructions are made of. -/

namespace Sys2Proof.Machine

variable (s : State)

/-! ### Frames of the plain updates -/

/-- Two states that agree but for the registers, `pc` and the result. -/
theorem keepsAllButRegs_of {ds : List RegNum} {s t : State} (hv : KeepsRegs ds s t)
    (h : t = { s with v := t.v, pc := t.pc, result := t.result }) : KeepsAllButRegs ds s t := by
  refine ⟨hv, ?_⟩
  rw [h]
  exact ⟨rfl, ⟨rfl, rfl⟩, ⟨rfl, rfl⟩, fun _ => rfl, fun _ => rfl, ⟨rfl, rfl, rfl⟩, rfl, rfl, rfl, rfl, rfl⟩

/-- One register written, then `pc` advanced. -/
theorem keepsAllButRegs_setReg (x : RegNum) (b : Byte) : KeepsAllButRegs [x] s (s.setReg x b).advance :=
  keepsAllButRegs_of (fun r hr => by simpa using State.reg_setReg_ne s b (by simpa using hr)) rfl

/-- A result and a flag written, then `pc` advanced. -/
theorem keepsAllButRegs_setRegFlag (x : RegNum) (b : Byte) (f : Bool) :
    KeepsAllButRegs [x, VF] s (s.setRegFlag x b f).advance :=
  keepsAllButRegs_of (fun r hr => by
    simp only [List.mem_cons, List.not_mem_nil, or_false, not_or] at hr
    simp [State.reg_setRegFlag, hr.1, hr.2]) rfl

/-- `pc` and the result written. -/
theorem keepsAllButRegs_setPc (w : Word) (r : CycleResult) : KeepsAllButRegs [] s ((s.setPc w).setResult r) :=
  keepsAllButRegs_of (fun _ _ => rfl) rfl

/-- Fault entry sets the latch and nothing else (R226). -/
theorem onlyLatchSet_raise (c : FatalCode) (w : Word) : OnlyLatchSet c w s (s.raise c w) :=
  ⟨rfl, rfl, rfl, rfl, rfl, fun _ _ => rfl, rfl, ⟨rfl, rfl⟩, ⟨rfl, rfl⟩, fun _ => rfl, fun _ => rfl,
    rfl, rfl, rfl, rfl, rfl⟩

/-- The result of a CYCLE is no part of the spec's tuple. -/
theorem sameCore_setResult (r : CycleResult) : SameCore s (s.setResult r) :=
  ⟨rfl, rfl, rfl, rfl, rfl, rfl, rfl, rfl, rfl, rfl, rfl, rfl⟩

/-- Nor are its inputs. -/
theorem sameCore_present (keys : Keys) (rnd : Byte) : SameCore s (s.present keys rnd) :=
  ⟨rfl, rfl, rfl, rfl, rfl, rfl, rfl, rfl, rfl, rfl, rfl, rfl⟩

/-! ### Equations -/

theorem exec_ret_of_empty (h : s.sp.val = 0) : exec .ret s = .next (s.raise .stackUnderflow 0x00EE) := by
  simp only [exec, execRet, (State.pop_eq_none_iff s).2 h, encode]

theorem exec_ret_of_nonempty (h : 0 < s.sp.val) :
    exec .ret s = .next (State.goTo { s with sp := ⟨s.sp.val - 1, by have := s.sp.isLt; omega⟩ }
      (s.stack[s.sp.val - 1]'(by have := s.sp.isLt; omega) + 2)) := by
  simp only [exec, execRet, (State.pop_eq_some_iff s _ _).2 ⟨h, rfl, rfl⟩]

theorem exec_call_of_full (nnn : Addr) (h : s.sp.val = 16) :
    exec (.call nnn) s = .next (s.raise .stackOverflow (encode (.call nnn))) := by
  simp only [exec, execCall, (State.push_eq_none_iff s s.pc).2 h]

theorem exec_call_of_room (nnn : Addr) (h : s.sp.val < 16) :
    exec (.call nnn) s = .next (State.goTo
      { s with stack := s.stack.set s.sp.val s.pc h, sp := ⟨s.sp.val + 1, by omega⟩ } (absAddr nnn)) := by
  simp only [exec, execCall, (State.push_eq_some_iff s _ s.pc).2 ⟨h, rfl⟩]

theorem exec_storeBcd_of_out (x : RegNum) (h : s.idx.toNat > 0xFFD) :
    exec (.storeBcd x) s = .next (s.raise .memoryOutOfRange (encode (.storeBcd x))) := by
  have : s.storeBytes (indexBase s) (bcdDigits (s.reg x)) = none := by
    rw [State.storeBytes_eq_none_iff, length_bcdDigits, indexBase]; omega
  simp only [exec, execStoreBcd, this]

theorem exec_storeBcd_of_in (x : RegNum) (h : s.idx.toNat ≤ 0xFFD) :
    exec (.storeBcd x) s =
      .next (s.setMem (Memory.writeBytes s.mem s.idx.toNat (bcdDigits (s.reg x)))).advance := by
  have : s.storeBytes (indexBase s) (bcdDigits (s.reg x)) =
      some (s.setMem (Memory.writeBytes s.mem s.idx.toNat (bcdDigits (s.reg x)))) := by
    rw [State.storeBytes_eq_some_iff, length_bcdDigits, indexBase]; exact ⟨by omega, rfl⟩
  simp only [exec, execStoreBcd, this]

theorem exec_storeRegs_of_out (x : RegNum) (h : s.idx.toNat + x.toNat > 0xFFF) :
    exec (.storeRegs x) s = .next (s.raise .memoryOutOfRange (encode (.storeRegs x))) := by
  have : s.storeBytes (indexBase s) (s.regsUpTo (regCount x)) = none := by
    rw [State.storeBytes_eq_none_iff, State.length_regsUpTo, indexBase, regCount]; omega
  simp only [exec, execStoreRegs, this]

theorem exec_storeRegs_of_in (x : RegNum) (h : s.idx.toNat + x.toNat ≤ 0xFFF) :
    exec (.storeRegs x) s =
      .next (s.setMem (Memory.writeBytes s.mem s.idx.toNat (s.regsUpTo (x.toNat + 1)))).advance := by
  have : s.storeBytes (indexBase s) (s.regsUpTo (regCount x)) =
      some (s.setMem (Memory.writeBytes s.mem s.idx.toNat (s.regsUpTo (x.toNat + 1)))) := by
    rw [State.storeBytes_eq_some_iff, State.length_regsUpTo, indexBase, regCount]; exact ⟨by omega, rfl⟩
  simp only [exec, execStoreRegs, this, Config.hw_memopIncrementsI, State.bumpIndex_false]

theorem exec_loadRegs_of_out (x : RegNum) (h : s.idx.toNat + x.toNat > 0xFFF) :
    exec (.loadRegs x) s = .next (s.raise .memoryOutOfRange (encode (.loadRegs x))) := by
  have : s.loadBytes (indexBase s) (regCount x) = none := by
    rw [State.loadBytes_eq_none_iff, indexBase, regCount]; omega
  simp only [exec, execLoadRegs, this]

theorem exec_loadRegs_of_in (x : RegNum) (h : s.idx.toNat + x.toNat ≤ 0xFFF) :
    exec (.loadRegs x) s =
      .next (s.setRegsFrom 0 (Memory.readBytes s.mem s.idx.toNat (x.toNat + 1))).advance := by
  have : s.loadBytes (indexBase s) (regCount x) = some (Memory.readBytes s.mem s.idx.toNat (x.toNat + 1)) := by
    rw [State.loadBytes_eq_some_iff, indexBase, regCount]; exact ⟨by omega, rfl⟩
  simp only [exec, execLoadRegs, this, Config.hw_memopIncrementsI, State.bumpIndex_false]

theorem exec_draw_of_out (x y : RegNum) (n : Height) (h : 1 ≤ n.toNat ∧ s.idx.toNat + n.toNat - 1 > 0xFFF) :
    exec (.draw x y n) s = .next (s.raise .memoryOutOfRange (encode (.draw x y n))) := by
  have : s.loadBytes (indexBase s) n.toNat = none := (State.loadBytes_eq_none_iff s _ _).2 h
  simp only [exec, execDraw, this]

theorem exec_draw_of_in (x y : RegNum) (n : Height) (h : ¬(1 ≤ n.toNat ∧ s.idx.toNat + n.toNat - 1 > 0xFFF)) :
    exec (.draw x y n) s =
      let cv := drawSprite s.fb (s.reg x) (s.reg y) (Memory.readBytes s.mem s.idx.toNat n.toNat)
      .next ((s.setFb cv.frame).setFlag cv.hit).advance := by
  have : s.loadBytes (indexBase s) n.toNat = some (Memory.readBytes s.mem s.idx.toNat n.toNat) := by
    rw [State.loadBytes_eq_some_iff, indexBase]; exact ⟨by omega, rfl⟩
  simp only [exec, execDraw, this]

theorem exec_skipIfKeyDown_of_out (x : RegNum) (h : (s.reg x).toNat > 15) :
    exec (.skipIfKeyDown x) s = .next (s.raise .keyIndexOutOfRange (encode (.skipIfKeyDown x))) := by
  simp only [exec, execSkipIfKeyDown, (keyIndex_eq_none_iff _).2 h]

theorem exec_skipIfKeyDown_of_in (x : RegNum) (h : (s.reg x).toNat ≤ 15) :
    exec (.skipIfKeyDown x) s = .next (s.skipIf (s.keys.getLsbD (s.reg x).toNat)) := by
  simp only [exec, execSkipIfKeyDown, (keyIndex_eq_some_iff _ _).2 ⟨h, rfl⟩, keyDown]

theorem exec_skipIfKeyUp_of_out (x : RegNum) (h : (s.reg x).toNat > 15) :
    exec (.skipIfKeyUp x) s = .next (s.raise .keyIndexOutOfRange (encode (.skipIfKeyUp x))) := by
  simp only [exec, execSkipIfKeyUp, (keyIndex_eq_none_iff _).2 h]

theorem exec_skipIfKeyUp_of_in (x : RegNum) (h : (s.reg x).toNat ≤ 15) :
    exec (.skipIfKeyUp x) s = .next (s.skipIf (!s.keys.getLsbD (s.reg x).toNat)) := by
  simp only [exec, execSkipIfKeyUp, (keyIndex_eq_some_iff _ _).2 ⟨h, rfl⟩, keyDown]

/-- The lowest key (R206): the least line that is down. -/
theorem lowestKey_eq_some_iff (k : Nat) :
    lowestKey s = some k ↔ k < 16 ∧ s.keys.getLsbD k = true ∧ ∀ j < k, s.keys.getLsbD j = false := by
  rw [lowestKey, List.find?_range_eq_some]
  simp only [keyDown, List.mem_range, Bool.not_eq_eq_eq_not, Bool.not_true]
  tauto

/-- There is no lowest key iff no line is down. -/
theorem lowestKey_eq_none_iff : lowestKey s = none ↔ s.keys = 0 := by
  rw [lowestKey, List.find?_eq_none]
  simp only [List.mem_range, keyDown, Bool.not_eq_true]
  constructor
  · intro h
    apply BitVec.eq_of_getLsbD_eq
    intro i hi
    simpa using h i hi
  · intro h k _
    simp [h]

theorem exec_waitForKey_of_none (x : RegNum) (h : s.keys = 0) : exec (.waitForKey x) s = .next s.wait := by
  simp only [exec, execWaitForKey, (lowestKey_eq_none_iff s).2 h]

theorem exec_waitForKey_of_some (x : RegNum) (k : Nat) (h : lowestKey s = some k) :
    exec (.waitForKey x) s = .next (s.setReg x (BitVec.ofNat 8 k)).advance := by
  simp only [exec, execWaitForKey, h]

end Sys2Proof.Machine
end

