-- ==== Sys2Proof/Laws/PerInstr.lean ====
section
/-! SUPPORT. Statements made per instruction. Family `RoundTrip`: the decoder reads back the word of a well-formed
instruction, one lemma per constructor. -/

namespace Sys2Proof.Laws.RoundTrip

/-- Decoding the encoding of a well-formed instruction gives it back. -/
def Statement (i : Instr) : Prop := i.wellFormed = true → decode (encode i) = .ok i

theorem clearScreen : Statement .clearScreen := fun _ => rfl
theorem ret : Statement .ret := fun _ => rfl
theorem jump (nnn : Addr) : Statement (.jump nnn) := fun _ => by simp [decode, encode]
theorem call (nnn : Addr) : Statement (.call nnn) := fun _ => by simp [decode, encode]
theorem skipEqImm (x : RegNum) (kk : Byte) : Statement (.skipEqImm x kk) := fun _ => by simp [decode, encode]
theorem skipNeqImm (x : RegNum) (kk : Byte) : Statement (.skipNeqImm x kk) := fun _ => by simp [decode, encode]
theorem skipEqReg (x y : RegNum) : Statement (.skipEqReg x y) := fun _ => by simp [decode, encode]
theorem loadImm (x : RegNum) (kk : Byte) : Statement (.loadImm x kk) := fun _ => by simp [decode, encode]
theorem addImm (x : RegNum) (kk : Byte) : Statement (.addImm x kk) := fun _ => by simp [decode, encode]
theorem assign (x y : RegNum) : Statement (.assign x y) := fun _ => by simp [decode, decodeReg, encode]
theorem orReg (x y : RegNum) : Statement (.orReg x y) := fun _ => by simp [decode, decodeReg, encode]
theorem andReg (x y : RegNum) : Statement (.andReg x y) := fun _ => by simp [decode, decodeReg, encode]
theorem xorReg (x y : RegNum) : Statement (.xorReg x y) := fun _ => by simp [decode, decodeReg, encode]
theorem addWithCarry (x y : RegNum) : Statement (.addWithCarry x y) := fun _ => by simp [decode, decodeReg, encode]
theorem subNotBorrow (x y : RegNum) : Statement (.subNotBorrow x y) := fun _ => by simp [decode, decodeReg, encode]
theorem shiftRight (x y : RegNum) : Statement (.shiftRight x y) := fun _ => by simp [decode, decodeReg, encode]
theorem subRevNotBorrow (x y : RegNum) : Statement (.subRevNotBorrow x y) := fun _ => by
  simp [decode, decodeReg, encode]
theorem shiftLeft (x y : RegNum) : Statement (.shiftLeft x y) := fun _ => by simp [decode, decodeReg, encode]
theorem skipNeqReg (x y : RegNum) : Statement (.skipNeqReg x y) := fun _ => by simp [decode, encode]
theorem setIndex (nnn : Addr) : Statement (.setIndex nnn) := fun _ => by simp [decode, encode]
theorem jumpOffset (nnn : Addr) : Statement (.jumpOffset nnn) := fun _ => by simp [decode, encode]
theorem random (x : RegNum) (kk : Byte) : Statement (.random x kk) := fun _ => by simp [decode, encode]
theorem draw (x y : RegNum) (n : Height) : Statement (.draw x y n) := fun _ => by simp [decode, encode]
theorem skipIfKeyDown (x : RegNum) : Statement (.skipIfKeyDown x) := fun _ => by simp [decode, decodeKey, encode]
theorem skipIfKeyUp (x : RegNum) : Statement (.skipIfKeyUp x) := fun _ => by simp [decode, decodeKey, encode]
theorem loadDelay (x : RegNum) : Statement (.loadDelay x) := fun _ => by simp [decode, decodeMisc, encode]
theorem waitForKey (x : RegNum) : Statement (.waitForKey x) := fun _ => by simp [decode, decodeMisc, encode]
theorem storeDelay (x : RegNum) : Statement (.storeDelay x) := fun _ => by simp [decode, decodeMisc, encode]
theorem storeSound (x : RegNum) : Statement (.storeSound x) := fun _ => by simp [decode, decodeMisc, encode]
theorem addIndex (x : RegNum) : Statement (.addIndex x) := fun _ => by simp [decode, decodeMisc, encode]
theorem loadFontAddr (x : RegNum) : Statement (.loadFontAddr x) := fun _ => by simp [decode, decodeMisc, encode]
theorem storeBcd (x : RegNum) : Statement (.storeBcd x) := fun _ => by simp [decode, decodeMisc, encode]
theorem storeRegs (x : RegNum) : Statement (.storeRegs x) := fun _ => by simp [decode, decodeMisc, encode]
theorem loadRegs (x : RegNum) : Statement (.loadRegs x) := fun _ => by simp [decode, decodeMisc, encode]
theorem machineRoutine (nnn : Addr) : Statement (.machineRoutine nnn) := fun h => by
  simp only [Instr.wellFormed, Bool.and_eq_true, bne_iff_ne] at h
  have hf : familyOf (encode (.machineRoutine nnn)) = 0x0 := familyOf_nnn 0x0 nnn
  have hn : fieldNNN (encode (.machineRoutine nnn)) = nnn := fieldNNN_nnn 0x0 nnn
  have h1 : encode (.machineRoutine nnn) ≠ 0x00E0 := fun e => h.1 (hn.symm.trans (congrArg fieldNNN e))
  have h2 : encode (.machineRoutine nnn) ≠ 0x00EE := fun e => h.2 (hn.symm.trans (congrArg fieldNNN e))
  rw [decode, hf, if_pos rfl, decodeLiteral, if_neg h1, if_neg h2, hn]

end Sys2Proof.Laws.RoundTrip
end

