-- ==== Sys2Proof/Tests/Slice0.lean ====
section
/-! SUPPORT. Tests. Expected results are the spec's: the patterns of R95 and the vectors of 95_test_vectors.md, whose ids the
comments give. Then one witness per hypothesis of the statements for the provers. -/

namespace Sys2Proof.Tests

open Sys2Proof Sys2Proof.Machine

/-! ### Well-formed and ill-formed terms (R95, R99) -/

theorem test_wf_refuses_clear_screen_as_routine : (Instr.machineRoutine 0x0E0).wellFormed = false := by decide
theorem test_wf_refuses_return_as_routine : (Instr.machineRoutine 0x0EE).wellFormed = false := by decide
theorem test_wf_takes_routine : (Instr.machineRoutine 0x1E0).wellFormed = true := by decide
theorem test_wf_takes_draw : (Instr.draw 0xF 0xF 0xF).wellFormed = true := by decide

/-! ### Decoding, words written out bit by bit from the patterns of R95 -/

theorem test_decode_clearScreen : decode 0b0000000011100000 = .ok (.clearScreen) := by decide
theorem test_decode_ret : decode 0b0000000011101110 = .ok (.ret) := by decide
theorem test_decode_jump : decode 0b0001001010100101 = .ok (.jump 0x2A5) := by decide
theorem test_decode_call : decode 0b0010100011110001 = .ok (.call 0x8F1) := by decide
theorem test_decode_skipEqImm : decode 0b0011101000110101 = .ok (.skipEqImm 0xA 0x35) := by decide
theorem test_decode_skipNeqImm : decode 0b0100101111000110 = .ok (.skipNeqImm 0xB 0xC6) := by decide
theorem test_decode_skipEqReg : decode 0b0101100101000000 = .ok (.skipEqReg 0x9 0x4) := by decide
theorem test_decode_loadImm : decode 0b0110110100101111 = .ok (.loadImm 0xD 0x2F) := by decide
theorem test_decode_addImm : decode 0b0111000111110000 = .ok (.addImm 0x1 0xF0) := by decide
theorem test_decode_assign : decode 0b1000001111000000 = .ok (.assign 0x3 0xC) := by decide
theorem test_decode_orReg : decode 0b1000001111000001 = .ok (.orReg 0x3 0xC) := by decide
theorem test_decode_andReg : decode 0b1000001111000010 = .ok (.andReg 0x3 0xC) := by decide
theorem test_decode_xorReg : decode 0b1000001111000011 = .ok (.xorReg 0x3 0xC) := by decide
theorem test_decode_addWithCarry : decode 0b1000001111000100 = .ok (.addWithCarry 0x3 0xC) := by decide
theorem test_decode_subNotBorrow : decode 0b1000001111000101 = .ok (.subNotBorrow 0x3 0xC) := by decide
theorem test_decode_shiftRight : decode 0b1000001111000110 = .ok (.shiftRight 0x3 0xC) := by decide
theorem test_decode_subRevNotBorrow : decode 0b1000001111000111 = .ok (.subRevNotBorrow 0x3 0xC) := by decide
theorem test_decode_shiftLeft : decode 0b1000001111001110 = .ok (.shiftLeft 0x3 0xC) := by decide
theorem test_decode_skipNeqReg : decode 0b1001011011100000 = .ok (.skipNeqReg 0x6 0xE) := by decide
theorem test_decode_setIndex : decode 0b1010000100100011 = .ok (.setIndex 0x123) := by decide
theorem test_decode_jumpOffset : decode 0b1011011011010010 = .ok (.jumpOffset 0x6D2) := by decide
theorem test_decode_random : decode 0b1100010110011100 = .ok (.random 0x5 0x9C) := by decide
theorem test_decode_draw : decode 0b1101000100101101 = .ok (.draw 0x1 0x2 0xD) := by decide
theorem test_decode_skipIfKeyDown : decode 0b1110011110011110 = .ok (.skipIfKeyDown 0x7) := by decide
theorem test_decode_skipIfKeyUp : decode 0b1110011110100001 = .ok (.skipIfKeyUp 0x7) := by decide
theorem test_decode_loadDelay : decode 0b1111100000000111 = .ok (.loadDelay 0x8) := by decide
theorem test_decode_waitForKey : decode 0b1111100000001010 = .ok (.waitForKey 0x8) := by decide
theorem test_decode_storeDelay : decode 0b1111100000010101 = .ok (.storeDelay 0x8) := by decide
theorem test_decode_storeSound : decode 0b1111100000011000 = .ok (.storeSound 0x8) := by decide
theorem test_decode_addIndex : decode 0b1111100000011110 = .ok (.addIndex 0x8) := by decide
theorem test_decode_loadFontAddr : decode 0b1111100000101001 = .ok (.loadFontAddr 0x8) := by decide
theorem test_decode_storeBcd : decode 0b1111100000110011 = .ok (.storeBcd 0x8) := by decide
theorem test_decode_storeRegs : decode 0b1111100001010101 = .ok (.storeRegs 0x8) := by decide
theorem test_decode_loadRegs : decode 0b1111100001100101 = .ok (.loadRegs 0x8) := by decide
theorem test_decode_machineRoutine : decode 0b0000111111101110 = .ok (.machineRoutine 0xFEE) := by decide
theorem test_decode_low_nibble_not_examined : decode 0x5AB7 = .ok (.skipEqReg 0xA 0xB) ∧
    decode 0x9AAF = .ok (.skipNeqReg 0xA 0xA) := by
  decide
theorem test_decode_unimplemented : decode 0x812D = .error (.unimplemented 0x812D) ∧
    decode 0xE1A0 = .error (.unimplemented 0xE1A0) ∧ decode 0xF075 = .error (.unimplemented 0xF075) := by decide
theorem test_decode_bytes_big_endian : decodeBytes [0xA1, 0x23, 0x55] = .ok (.setIndex 0x123, [0x55]) := by decide
theorem test_decode_truncated : decodeBytes [0xA1] = .error .truncated := by decide
theorem test_encode_big_endian : encodeBytes (.setIndex 0x123) = [0xA1, 0x23] := by decide
theorem test_decode_table_word : decodeTableWord 16 0xD12D = some (.draw 1 2 0xD) := by decide

/-! ### Single steps, one vector each -/

/-- One `CYCLE` with a word at `pc` ends in a next state with the property. -/
def after (s : State) (w : Word) (keys : Keys) (rnd : Byte) (p : State → Bool) : Bool :=
  match step { s.placeWord s.pc.toNat w with pending := [.cycle keys rnd] } with
  | .next t => p t
  | _ => false

/-- Is the cell in this row and column lit? -/
def lit (s : State) (row col : Nat) : Bool := fbGet s.fb (cellIndex row col)

/-- Cells 0, 5 and 2047 lit. -/
def dots : Frame := fbSet (fbSet (fbSet fbClear 0 true) 5 true) 2047 true

/-- B4.1 -/
theorem test_step_clearScreen :
    after ({ State.reset with fb := dots }) 0x00E0 0 0
      (fun t => t.fb == fbClear && t.pc == 0x202 && t.reg VF == 0) = true := by decide
/-- B1.1 -/
theorem test_step_ret :
    after ({ State.reset with pc := 0x300, sp := 1, stack := State.reset.stack.set 0 0x204 }) 0x00EE 0 0
      (fun t => t.pc == 0x206 && t.sp == 0) = true := by decide
/-- B1.3 -/
theorem test_step_ret_empty :
    after (State.reset) 0x00EE 0 0
      (fun t => t.fault == some .stackUnderflow && t.faultWord == 0x00EE && t.faultPc == 0x200 &&
        t.pc == 0x200) = true := by decide
/-- B1.7 -/
theorem test_step_jump_odd :
    after (State.reset) 0x1301 0 0
      (fun t => t.pc == 0x301 && t.result == some .ok) = true := by decide
/-- B1.8b -/
theorem test_step_call_last :
    after ({ State.reset with sp := 15 }) 0x2300 0 0
      (fun t => t.pc == 0x300 && t.sp == 16 && t.stack[15] == 0x200) = true := by decide
/-- B1.9 -/
theorem test_step_call_full :
    after ({ State.reset with sp := 16 }) 0x2300 0 0
      (fun t => t.fault == some .stackOverflow && t.faultWord == 0x2300 && t.sp == 16 &&
        t.result == some (.fatal .stackOverflow 0x2300 0x200)) = true := by decide
/-- B1.11 -/
theorem test_step_skipEqImm : after (State.reset.setReg 0xA 5) 0x3A05 0 0 (fun t => t.pc == 0x204) = true := by decide
/-- B1.23 -/
theorem test_step_skipEqImm_end :
    after (State.reset.setPc 0xFFE) 0x3000 0 0
      (fun t => t.pc == 0x1002) = true := by decide
/-- B1.13 -/
theorem test_step_skipNeqImm : after (State.reset.setReg 0xA 5) 0x4A05 0 0 (fun t => t.pc == 0x202) = true := by decide
/-- B1.17 -/
theorem test_step_skipEqReg :
    after ((State.reset.setReg 0xA 9).setReg 0xB 9) 0x5AB7 0 0
      (fun t => t.pc == 0x204) = true := by decide
/-- B1.18 -/
theorem test_step_skipNeqReg :
    after ((State.reset.setReg 1 1).setReg 2 2) 0x9120 0 0
      (fun t => t.pc == 0x204) = true := by decide
/-- B1.21 -/
theorem test_step_jumpOffset :
    after (State.reset.setReg 0 0xFF) 0xBFFF 0 0
      (fun t => t.pc == 0x10FE) = true := by decide
/-- B1.22 -/
theorem test_step_jumpOffset_V0 :
    after (State.reset.setReg 2 0x50) 0xB200 0 0
      (fun t => t.pc == 0x200) = true := by decide
/-- B2.2 -/
theorem test_step_loadImm :
    after (State.reset) 0x6FFF 0 0
      (fun t => t.reg VF == 0xFF && t.pc == 0x202) = true := by decide
/-- B2.3 -/
theorem test_step_addImm :
    after ((State.reset.setReg 0xA 0xFF).setReg VF 7) 0x7A01 0 0
      (fun t => t.reg 0xA == 0 && t.reg VF == 7) = true := by decide
/-- B2.5 -/
theorem test_step_assign :
    after ((State.reset.setReg 2 0x55).setReg VF 7) 0x8120 0 0
      (fun t => t.reg 1 == 0x55 && t.reg 2 == 0x55 && t.reg VF == 7) = true := by decide
/-- B2.6a -/
theorem test_step_or :
    after (((State.reset.setReg 1 0xF0).setReg 2 0x0F).setReg VF 1) 0x8121 0 0
      (fun t => t.reg 1 == 0xFF && t.reg VF == 1) = true := by decide
/-- B2.6b -/
theorem test_step_and :
    after (((State.reset.setReg 1 0xF0).setReg 2 0x3C).setReg VF 1) 0x8122 0 0
      (fun t => t.reg 1 == 0x30 && t.reg VF == 1) = true := by decide
/-- B2.6c -/
theorem test_step_xor :
    after (((State.reset.setReg 1 0xF0).setReg 2 0x3C).setReg VF 1) 0x8123 0 0
      (fun t => t.reg 1 == 0xCC && t.reg VF == 1) = true := by decide
/-- B2.8 -/
theorem test_step_addWithCarry_255 :
    after (((State.reset.setReg 1 0xFE).setReg 2 1).setReg VF 1) 0x8124 0 0
      (fun t => t.reg 1 == 0xFF && t.reg VF == 0) = true := by decide
/-- B2.14 -/
theorem test_step_addWithCarry_y15 :
    after ((State.reset.setReg 1 0xFF).setReg VF 1) 0x81F4 0 0
      (fun t => t.reg 1 == 0 && t.reg VF == 1) = true := by decide
/-- B2.15 -/
theorem test_step_subNotBorrow :
    after (((State.reset.setReg 1 5).setReg 2 7).setReg VF 1) 0x8125 0 0
      (fun t => t.reg 1 == 0xFE && t.reg VF == 0) = true := by decide
/-- B2.19 -/
theorem test_step_subNotBorrow_x15 :
    after ((State.reset.setReg 1 3).setReg VF 5) 0x8F15 0 0
      (fun t => t.reg VF == 1) = true := by decide
/-- B2.24 -/
theorem test_step_shiftRight :
    after ((State.reset.setReg 1 4).setReg 0xA 0xFF) 0x81A6 0 0
      (fun t => t.reg 1 == 2 && t.reg VF == 0 && t.reg 0xA == 0xFF) = true := by decide
/-- B2.26 -/
theorem test_step_shiftRight_x15 :
    after (State.reset.setReg VF 2) 0x8F06 0 0
      (fun t => t.reg VF == 0) = true := by decide
/-- B2.27 -/
theorem test_step_subRevNotBorrow :
    after ((State.reset.setReg 1 5).setReg 2 7) 0x8127 0 0
      (fun t => t.reg 1 == 2 && t.reg 2 == 7 && t.reg VF == 1) = true := by decide
/-- B2.30 -/
theorem test_step_shiftLeft :
    after (State.reset.setReg 1 0x81) 0x810E 0 0
      (fun t => t.reg 1 == 2 && t.reg VF == 1) = true := by decide
/-- B2.35 -/
theorem test_step_random : after (State.reset) 0xC10F 0 0xA7 (fun t => t.reg 1 == 7) = true := by decide
/-- B3.1 -/
theorem test_step_setIndex : after (State.reset.setIdx 0xABCD) 0xAFFF 0 0 (fun t => t.idx == 0xFFF) = true := by decide
/-- B3.4 -/
theorem test_step_addIndex_wrap :
    after ((State.reset.setReg 1 2).setIdx 0xFFFF) 0xF11E 0 0
      (fun t => t.idx == 1 && t.reg VF == 0) = true := by decide
/-- B3.8 -/
theorem test_step_loadFontAddr :
    after (State.reset.setReg 3 0xFF) 0xF329 0 0
      (fun t => t.idx == 0x54B) = true := by decide
/-- B3.12 -/
theorem test_step_storeBcd_last :
    after ((State.reset.setReg 0 0x80).setIdx 0xFFD) 0xF033 0 0
      (fun t => t.readByte 0xFFD == 1 && t.readByte 0xFFE == 2 && t.readByte 0xFFF == 8) = true := by decide
/-- B3.13 -/
theorem test_step_storeBcd_out :
    after ((State.reset.setReg 0 0x80).setIdx 0xFFE) 0xF033 0 0
      (fun t => t.fault == some .memoryOutOfRange && t.readByte 0xFFE == 0 && t.pc == 0x200) = true := by decide
/-- B3.14 -/
theorem test_step_storeRegs :
    after (((((State.reset.setReg 0 1).setReg 1 2).setReg 2 3).setReg 3 4).setIdx 0x300) 0xF255 0 0
      (fun t => t.readByte 0x300 == 1 && t.readByte 0x302 == 3 && t.readByte 0x303 == 0 &&
        t.idx == 0x300) = true := by decide
/-- B3.18 -/
theorem test_step_storeRegs_out :
    after (State.reset.setIdx 0x1000) 0xF055 0 0
      (fun t => t.fault == some .memoryOutOfRange && t.faultWord == 0xF055) = true := by decide
/-- B3.19 -/
theorem test_step_loadRegs :
    after ((State.reset.setReg 2 0x77).setIdx 0x050) 0xF165 0 0
      (fun t => t.reg 0 == 0xF0 && t.reg 1 == 0x90 && t.reg 2 == 0x77) = true := by decide
/-- B3.22 -/
theorem test_step_loadRegs_out :
    after ((State.reset.setReg 0 0x99).setIdx 0xFFF) 0xF165 0 0
      (fun t => t.fault == some .memoryOutOfRange && t.reg 0 == 0x99) = true := by decide
/-- B4.14 -/
theorem test_step_draw_wrap :
    after ((((State.reset.setReg 0 0x3C).setIdx 0x300).setMem [(0x300, 0xFF)])) 0xD011 0 0
      (fun t => lit t 0 3 && lit t 0 60 && lit t 0 63 && !lit t 0 4 && t.reg VF == 0) = true := by decide
/-- B4.7, first row -/
theorem test_step_draw_hit :
    after ({ (State.reset.setIdx 0x050) with fb := fbSet fbClear 3 true }) 0xD011 0 0
      (fun t => t.reg VF == 1 && !lit t 0 3 && lit t 0 2) = true := by decide
/-- B5.1 -/
theorem test_step_skipIfKeyDown :
    after (State.reset.setReg 5 0xA) 0xE59E 0x0400 0
      (fun t => t.pc == 0x204) = true := by decide
/-- B5.3 -/
theorem test_step_skipIfKeyDown_out :
    after (State.reset.setReg 5 0x10) 0xE59E 0xFFFF 0
      (fun t => t.fault == some .keyIndexOutOfRange && t.pc == 0x200) = true := by decide
/-- B5.4 -/
theorem test_step_skipIfKeyUp :
    after (State.reset.setReg 5 0xA) 0xE5A1 0x0400 0
      (fun t => t.pc == 0x202) = true := by decide
/-- B5.9 -/
theorem test_step_waitForKey :
    after (State.reset.setReg 3 0x55) 0xF30A 0x0280 0
      (fun t => t.reg 3 == 7 && t.pc == 0x202) = true := by decide
/-- B5.8 -/
theorem test_step_waitForKey_none :
    after (State.reset.setReg 3 0x55) 0xF30A 0 0
      (fun t => t.reg 3 == 0x55 && t.pc == 0x200 && t.result == some .waiting) = true := by decide
/-- B5.13 -/
theorem test_step_loadDelay : after (State.reset.setDt 0x3C) 0xF407 0 0 (fun t => t.reg 4 == 0x3C) = true := by decide
/-- B5.14 -/
theorem test_step_storeDelay :
    after (State.reset.setReg 4 0x3C) 0xF415 0 0
      (fun t => t.dt == 0x3C && t.st == 0) = true := by decide
/-- B5.16 -/
theorem test_step_storeSound :
    after (State.reset.setReg 4 2) 0xF418 0 0
      (fun t => t.st == 2 && t.dt == 0) = true := by decide
/-- B6.5 -/
theorem test_step_machineRoutine :
    after (State.reset) 0x01E0 0 0
      (fun t => t.result == some (.unimplemented 0x01E0 0x200) && t.pc == 0x200) = true := by decide
/-- B6.8 -/
theorem test_step_unimplemented :
    after (State.reset) 0x8128 0 0
      (fun t => t.result == some (.unimplemented 0x8128 0x200) && t.pc == 0x200 && t.fault == none) = true := by decide
/-- B6.19 -/
theorem test_step_halted :
    after ({ State.reset with fault := some .keyIndexOutOfRange, faultWord := 0xE59E, faultPc := 0x200 }) 0x0000 0 0
      (fun t => t.result == some (.halted .keyIndexOutOfRange) && t.faultWord == 0xE59E) = true := by decide
/-- B6.20 -/
theorem test_step_fetch_out :
    after (State.reset.setPc 0xFFF) 0x0000 0 0
      (fun t => t.fault == some .fetchOutOfRange && t.faultWord == 0 && t.faultPc == 0xFFF) = true := by decide

/-! ### Events -/

/-- C4, C6: both timers count down, also in a halted core. -/
theorem test_tick : (tick { State.reset with dt := 0xFF, st := 2 }).dt = 0xFE ∧
    (tick { State.reset with dt := 5, st := 3, fault := some .stackOverflow }).st = 2 ∧ (tick State.reset).dt = 0 := by
  decide
/-- Part C, `RESET`: memory and stack are cleared, the driver's schedule stays. -/
theorem test_reset_event :
    step { State.reset with pc := 0x300, sp := 16, mem := [(0x300, 1)], fault := some .stackOverflow, pending := [.reset] } =
      .next State.reset := rfl
/-- R263: the image lands at `0x200`. -/
theorem test_load : runEvent (.load [0x12, 0x00]) State.reset =
    .next { State.reset with mem := [(0x200, 0x12)], awaitingLoad := false } := rfl
/-- Two CYCLEs and a TICK are three steps of one schedule (R265). -/
theorem test_iteration : iteration 0x0001 [7, 8] = [.cycle 1 7, .cycle 1 8, .tick] := by decide
/-- The host's way in: the very next step runs the word. -/
theorem test_withFetchWord :
    step (State.reset.withFetchWord 16 0x6A2F) = exec (.loadImm 0xA 0x2F)
      { State.reset with mem := [(0x200, 0x6A), (0x201, 0x2F)], awaitingLoad := false } := rfl
/-- The canonical form: writing the reset byte back unlists the address. -/
theorem test_memory_canonical : Memory.write (Memory.write [] 0x050 0x00) 0x050 0xF0 = [] := by decide

/-! ### Witnesses: a state and operands that meet the hypotheses of each statement, every clause at a boundary value -/

/-- Two states that agree on every field of the spec's tuple. -/
theorem sameCore_refl (s : State) : SameCore s s := ⟨rfl, rfl, rfl, rfl, rfl, rfl, rfl, rfl, rfl, rfl, rfl, rfl⟩

/-- A core one CYCLE before its last call level returns: a full stack, a stored byte, a scheduled CYCLE. -/
def deep : State :=
  { State.reset with pc := 0xFFE, sp := 16, stack := Vector.replicate 16 0xFFE, mem := [(0xFFF, 0xEE)],
                     awaitingLoad := false, pending := [.cycle 0 0] }

/-- The same core after a call in place of the return. -/
def deepHalted : State :=
  { deep with mem := [(0xFFE, 0x23)], fault := some .stackOverflow, faultWord := 0x2300, faultPc := 0xFFE }

theorem witness_DecodeEncodeRoundTrip : (Instr.draw 0xF 0xF 0xF).wellFormed = true ∧
    (Instr.machineRoutine 0xFFF).wellFormed = true ∧ (Instr.machineRoutine 0x000).wellFormed = true := by decide
theorem witness_DecodedWordIsItsEncoding : decode 0x5FFF = .ok (.skipEqReg 0xF 0xF) ∧ decode 0xFF65 = .ok (.loadRegs 0xF) := by
  decide
theorem witness_DecoderFollowsOpcodeMap : decode 0x00E0 = .ok .clearScreen ∧ selectRow 0x00E0 = some 1 ∧
    decode 0x00E1 = .ok (.machineRoutine 0x0E1) ∧ selectRow 0x00E1 = some 35 ∧
    decode 0x800F = .error (.unimplemented 0x800F) ∧ selectRow 0x800F = none := by decide
theorem witness_StepRunsDecodedInstruction :
    deep.pending = .cycle 0 0 :: [] ∧ deep.fault = none ∧ deep.pc.toNat ≤ 0xFFE ∧
      decodeBytes [deep.readByte deep.pc.toNat, deep.readByte (deep.pc.toNat + 1)] = .ok (.ret, []) := by decide
theorem witness_FetchIsBigEndian : (State.reset.setPc 0xFFE).pc.toNat ≤ 0xFFE ∧ (State.reset.setPc 0x301).pc.toNat ≤ 0xFFE := by
  decide
theorem witness_StepTakesOneEvent :
    { State.reset with pending := [.cycle 1 2] }.pending = .cycle 1 2 :: [] ∧
    { State.reset with pending := [.tick] }.pending = .tick :: [] ∧
    { State.reset with pending := [.reset] }.pending = .reset :: [] ∧
    { State.reset with pending := [.load []] }.pending = .load [] :: [] ∧ State.reset.pending = [] := by decide
theorem witness_HaltedCoreStaysHalted : deepHalted.fault = some .stackOverflow ∧
    runEvent .tick deepHalted = .next (tick deepHalted) ∧ Event.tick ≠ .reset := ⟨rfl, rfl, nofun⟩
theorem witness_FetchBeyondMemoryFaults : (State.reset.setPc 0xFFF).fault = none ∧ 0xFFF ≤ (State.reset.setPc 0xFFF).pc.toNat := by
  decide
theorem witness_UnimplementedWordIsReportedAndHeld :
    (State.reset.fault = none ∧ State.reset.fetch = some 0 ∧ decode 0 = .ok (.machineRoutine 0)) ∧
    (let s := State.reset.placeWord 0x200 0x8128
     s.fault = none ∧ s.fetch = some 0x8128 ∧ decode 0x8128 = .error (.unimplemented 0x8128)) := by decide
/-- Each of the five results occurs. -/
theorem witness_CycleEndsWithOneOfFiveResults :
    after State.reset 0x6A2F 0 0 (fun t => t.result == some .ok) = true ∧
    after State.reset 0xF00A 0 0 (fun t => t.result == some .waiting) = true ∧
    after State.reset 0xF0FF 0 0 (fun t => t.result == some (.unimplemented 0xF0FF 0x200)) = true ∧
    after State.reset 0x00EE 0 0 (fun t => t.result == some (.fatal .stackUnderflow 0x00EE 0x200)) = true ∧
    after deepHalted 0x00EE 0 0 (fun t => t.result == some (.halted .stackOverflow)) = true := by decide
theorem witness_CycleDependsOnCoreAndInputsOnly :
    SameCore State.reset { State.reset with pending := [.tick], result := some .waiting, keys := 5, freeIndex := 9 } ∧
    ∃ t, cycle 1 2 State.reset = .next t := ⟨sameCore_refl _, _, rfl⟩
/-- A next state with each kind of result, and the two edges of the addresses. -/
theorem witness_ProgramCounterDiscipline :
    (∃ t, exec (.skipEqImm 0 0) State.reset = .next t ∧ t.result = some .ok ∧ t.pc = 0x204) ∧
    (∃ t, exec (.waitForKey 0) State.reset = .next t ∧ t.result = some .waiting ∧ t.pc = 0x200) ∧
    (∃ t, exec .ret State.reset = .next t ∧ t.result = some (.fatal .stackUnderflow 0x00EE 0x200)) ∧
    (let s := State.reset.placeWord 0x200 0x8128
     s.fault = none ∧ s.fetch = some 0x8128 ∧ decode 0x8128 = .error (.unimplemented 0x8128) ∧
      ∃ t, cycle 0 0 s = .next t) ∧
    (State.reset.setPc 0xFFE).pc.toNat ≤ 0xFFE :=
  ⟨⟨_, rfl, rfl, rfl⟩, ⟨_, rfl, rfl, rfl⟩, ⟨_, rfl, rfl⟩, ⟨rfl, rfl, rfl, _, rfl⟩, by decide⟩
theorem witness_RegistersWrittenAsListed : ∃ t, exec (.loadRegs 0xF) (State.reset.setIdx 0xFF0) = .next t := ⟨_, rfl⟩
theorem witness_StateWrittenOnlyByItsInstructions :
    (∃ t, exec (.storeRegs 0xF) ((State.reset.setReg 3 7).setIdx 0xFF0) = .next t ∧ t.readByte 0xFF3 = 7) ∧
    (∃ t, exec (.setIndex 0xFFF) State.reset = .next t ∧ t.idx = 0xFFF) :=
  ⟨⟨_, rfl, by decide⟩, ⟨_, rfl, rfl⟩⟩
theorem witness_FaultTableAndEntry :
    ((State.reset.setPc 0xFFF).fault = none ∧ 0xFFF ≤ (State.reset.setPc 0xFFF).pc.toNat) ∧
    (let s := State.reset.placeWord 0x200 0x00EE
     s.fault = none ∧ s.fetch = some 0x00EE ∧ decode 0x00EE = .ok .ret ∧ faultCondition .ret s) ∧
    (deep.fault = none ∧ deep.fetch = some 0x00EE ∧ decode 0x00EE = .ok .ret ∧ ¬ faultCondition .ret deep) :=
  ⟨by decide, ⟨rfl, rfl, rfl, rfl⟩, ⟨rfl, rfl, rfl, nofun⟩⟩
/-- Every condition at the least value that raises it and the greatest that does not. -/
theorem witness_FaultsArePrecise :
    (faultCondition (.call 0) deep ∧ ¬ faultCondition (.call 0) { deep with sp := 15 }) ∧
    (faultCondition .ret State.reset ∧ ¬ faultCondition .ret { deep with sp := 1 }) ∧
    (faultCondition (.draw 0 1 5) (State.reset.setIdx 0xFFC) ∧ ¬ faultCondition (.draw 0 1 5) (State.reset.setIdx 0xFFB) ∧
      ¬ faultCondition (.draw 0 1 0) (State.reset.setIdx 0xFFFF)) ∧
    (faultCondition (.storeBcd 0) (State.reset.setIdx 0xFFE) ∧ ¬ faultCondition (.storeBcd 0) (State.reset.setIdx 0xFFD)) ∧
    (faultCondition (.storeRegs 0xF) (State.reset.setIdx 0xFF1) ∧
      ¬ faultCondition (.storeRegs 0xF) (State.reset.setIdx 0xFF0)) ∧
    (faultCondition (.loadRegs 0) (State.reset.setIdx 0x1000) ∧ ¬ faultCondition (.loadRegs 0) (State.reset.setIdx 0xFFF)) ∧
    (faultCondition (.skipIfKeyDown 5) (State.reset.setReg 5 0x10) ∧
      ¬ faultCondition (.skipIfKeyDown 5) (State.reset.setReg 5 0xF)) ∧
    (faultCondition (.skipIfKeyUp 5) (State.reset.setReg 5 0x10) ∧
      ¬ faultCondition (.skipIfKeyUp 5) (State.reset.setReg 5 0xF)) := by
  simp only [faultCondition]; decide
theorem witness_ResetGivesTheListedValues :
    ((0x04F : Nat) < 0x050 ∨ (0x0A0 ≤ 0x04F ∧ 0x04F ≤ 0xFFF)) ∧ ((0x0A0 : Nat) < 0x050 ∨ (0x0A0 ≤ 0x0A0 ∧ 0x0A0 ≤ 0xFFF)) ∧
    State.reset.readByte 0x050 = 0xF0 ∧ State.reset.readByte 0x09F = 0x80 ∧ State.reset.readByte 0x04F = 0 ∧
    State.reset.readByte 0x0A0 = 0 := by decide
/-- The longest image there is room for, one byte more, and a core past its load. -/
theorem witness_LoadPlacesTheImage :
    (State.reset.awaitingLoad = true ∧ (List.replicate 3584 (0 : Byte)).length ≤ 3584) ∧
    (State.reset.awaitingLoad = true ∧ (List.replicate 3585 (0 : Byte)).length > 3584) ∧ deep.awaitingLoad = false := by
  simp only [List.length_replicate]; decide
theorem witness_DelayTimerNeverIncreases :
    runEvent .tick { State.reset with dt := 1 } = .next { State.reset with dt := 0 } ∧ Event.tick ≠ .reset ∧
    (∀ keys rnd x, Event.tick = .cycle keys rnd → ¬ AtInstr { State.reset with dt := 1 } (.storeDelay x)) :=
  ⟨rfl, by decide, nofun⟩
/-- The invariant holds of a running core with a full stack and of a halted one, and both go on. -/
theorem witness_StepKeepsInvariant : (CoreInv deep ∧ ∃ t, step deep = .next t ∧ t.pc = 0x1000) ∧
    (CoreInv deepHalted ∧ ∃ t, step deepHalted = .next t ∧ t.fault = some .stackOverflow) := by
  refine ⟨⟨⟨by decide, by decide, by decide, by decide, by decide, by decide, nofun, nofun⟩, _, rfl, by decide⟩,
    ⟨by decide, by decide, by decide, by decide, by decide, by decide, ?_, nofun⟩, _, rfl, by decide⟩
  intro c hc _
  cases hc
  exact ⟨by decide, .call 0x300, rfl, rfl, rfl⟩
theorem witness_ReturnPopsTheCallersAddress : State.reset.sp.val = 0 ∧ 0 < { deep with sp := 1 }.sp.val ∧ 0 < deep.sp.val ∧
    CoreInv deep := ⟨rfl, by decide, by decide, witness_StepKeepsInvariant.1.1⟩
theorem witness_JumpSetsTheProgramCounter : State.reset.pc.toNat = (0x200 : Addr).toNat ∧ (0xFFF : Addr) = 0xFFF ∧
    State.reset.fault = none := by decide
theorem witness_CallPushesItsOwnAddress : deep.sp.val = 16 ∧ { deep with sp := 15 }.sp.val < 16 ∧ State.reset.sp.val < 16 ∧
    ∃ t, exec (.call 0x300) { deep with sp := 15 } = .next t ∧ KeepsStack t { t with dt := 9 } :=
  ⟨by decide, by decide, by decide, _, rfl, rfl, rfl⟩
theorem witness_JumpOffsetAddsV0 : 0xFFF ≤ (0xFFF : Addr).toNat + (State.reset.reg 0).toNat ∧ State.reset.fault = none := by
  decide
/-- For the five flag-producing operations: a destination other than `VF`. -/
theorem witness_FlagOperations : (0xE : RegNum) ≠ 15 ∧ (0 : RegNum) ≠ 15 := by decide
theorem witness_LoadFontAddrPointsAtTheGlyph :
    (∀ a, 0x050 ≤ a → a ≤ 0x09F → (State.reset.setReg 3 0xF).readByte a = State.reset.readByte a) ∧
    ((State.reset.setReg 3 0xF).reg 3).toNat = (15 : Fin 16).val := ⟨fun _ _ _ => rfl, by decide⟩
theorem witness_StoreBcdWritesThreeDigits : (State.reset.setIdx 0xFFE).idx.toNat > 0xFFD ∧
    (State.reset.setIdx 0xFFD).idx.toNat ≤ 0xFFD := by decide
theorem witness_StoreRegsCopiesRegistersToMemory :
    (State.reset.setIdx 0xFF1).idx.toNat + (0xF : RegNum).toNat > 0xFFF ∧
    (State.reset.setIdx 0xFF0).idx.toNat + (0xF : RegNum).toNat ≤ 0xFFF ∧ (0xF : RegNum).toNat ≤ (0xF : RegNum).toNat := by
  decide
theorem witness_LoadRegsCopiesMemoryToRegisters :
    (State.reset.setIdx 0xFFF).idx.toNat + (1 : RegNum).toNat > 0xFFF ∧
    (State.reset.setIdx 0xFFF).idx.toNat + (0 : RegNum).toNat ≤ 0xFFF ∧ (0 : RegNum).toNat ≤ (0 : RegNum).toNat ∧
    (0 : RegNum).toNat < (1 : RegNum).toNat := by decide
/-- The same statement's last clause: a store at the top of memory, then a register overwritten. -/
theorem witness_LoadRegsAfterStoreRegs :
    ∃ t, exec (.storeRegs 2) ((State.reset.setReg 2 9).setIdx 0xFFD) = .next t ∧ t.result = some .ok ∧
      (t.setReg 2 0).idx = t.idx ∧ ∀ r : RegNum, r.toNat ≤ (2 : RegNum).toNat →
        (t.setReg 2 0).readByte (t.idx.toNat + r.toNat) = t.readByte (t.idx.toNat + r.toNat) :=
  ⟨_, rfl, rfl, rfl, fun _ _ => rfl⟩
theorem witness_DrawXorsTheSprite :
    (1 ≤ (5 : Height).toNat ∧ (State.reset.setIdx 0xFFC).idx.toNat + (5 : Height).toNat - 1 > 0xFFF) ∧
    ¬(1 ≤ (5 : Height).toNat ∧ (State.reset.setIdx 0xFFB).idx.toNat + (5 : Height).toNat - 1 > 0xFFF) ∧
    ¬(1 ≤ (0 : Height).toNat ∧ (State.reset.setIdx 0xFFFF).idx.toNat + (0 : Height).toNat - 1 > 0xFFF) ∧
    (4 : Nat) < (5 : Height).toNat ∧ (7 : Nat) < 8 := by decide
theorem witness_DrawTwiceRestoresTheDisplay : spriteBit (State.reset.setIdx 0x050) 0 0 = true ∧
    ∃ t, exec (.draw 0 1 1) (State.reset.setIdx 0x050) = .next t ∧ t.result = some .ok ∧
      t.reg 0 = (State.reset.setIdx 0x050).reg 0 ∧ t.reg 1 = (State.reset.setIdx 0x050).reg 1 :=
  ⟨by decide, _, rfl, rfl, by decide, by decide⟩
theorem witness_StoreSoundWritesTheTimer : ∃ t, exec (.storeDelay 0xF) { State.reset with st := 3 } = .next t := ⟨_, rfl⟩
/-- For both key skips. -/
theorem witness_KeySkips : ((State.reset.setReg 5 0x10).reg 5).toNat > 15 ∧ ((State.reset.setReg 5 0xF).reg 5).toNat ≤ 15 := by
  decide
/-- No line, and the highest line alone. -/
theorem witness_WaitForKeyTakesTheLowestKey : State.reset.keys = 0 ∧ { State.reset with keys := 0x8000 }.keys ≠ 0 ∧
    lowestKey { State.reset with keys := 0x8000 } = some 15 := by decide
/-- Each of the four ways. -/
theorem witness_FourWaysOfNoProgress : Halted deepHalted ∧ HeldOnUnimplemented State.reset ∧
    HeldOnUnimplemented (State.reset.placeWord 0x200 0x8128) ∧ Waiting (State.reset.placeWord 0x200 0xF30A) 0 ∧
    ProgramEnded (State.reset.placeWord 0x200 0x1200) ∧ ProgramEnded ((State.reset.setPc 0xFFE).placeWord 0xFFE 0x1FFE) :=
  ⟨nofun, ⟨rfl, 0, rfl, .inl ⟨0, rfl⟩⟩, ⟨rfl, 0x8128, rfl, .inr rfl⟩, ⟨rfl, 3, rfl, 0xF30A, rfl, rfl⟩, ⟨rfl, rfl⟩,
    ⟨rfl, rfl⟩⟩

end Sys2Proof.Tests
end

section
/-! SUPPORT. The choice of the next event (R13, R265), said once: what `step` is with an event scheduled and with none,
and what each kind of event runs. -/

namespace Sys2Proof.Machine

theorem State.nextEvent_of_pending_cons {s : State} {e : Event} {rest : List Event}
    (h : s.pending = e :: rest) : s.nextEvent = e := by
  simp only [State.nextEvent, h]

theorem State.takeEvent_of_pending_cons {s : State} {e : Event} {rest : List Event}
    (h : s.pending = e :: rest) : s.takeEvent = { s with pending := rest } := by
  simp only [State.takeEvent, h]

theorem State.nextEvent_of_pending_nil {s : State} (h : s.pending = []) :
    s.nextEvent = Config.freeEvent s.freeIndex := by
  simp only [State.nextEvent, h]

theorem State.takeEvent_of_pending_nil {s : State} (h : s.pending = []) :
    s.takeEvent = { s with freeIndex := s.freeIndex + 1 } := by
  simp only [State.takeEvent, h]

@[simp] theorem runEvent_cycle (keys : Keys) (rnd : Byte) (s : State) :
    runEvent (.cycle keys rnd) s = cycle keys rnd s := rfl

@[simp] theorem runEvent_tick (s : State) : runEvent .tick s = .next (tick s) := rfl

@[simp] theorem runEvent_reset (s : State) : runEvent .reset s = .next s.resetEvent := rfl

@[simp] theorem runEvent_load (image : List Byte) (s : State) :
    runEvent (.load image) s = loadImage image s := rfl

/-- The first scheduled event is taken off the schedule and run. -/
theorem step_of_pending_cons {s : State} {e : Event} {rest : List Event} (h : s.pending = e :: rest) :
    step s = runEvent e { s with pending := rest } := by
  rw [step, State.nextEvent_of_pending_cons h, State.takeEvent_of_pending_cons h]

/-- With nothing scheduled, the free event at the state's index is run, and the index moves on. -/
theorem step_of_pending_nil {s : State} (h : s.pending = []) :
    step s = runEvent (Config.freeEvent s.freeIndex) { s with freeIndex := s.freeIndex + 1 } := by
  rw [step, State.nextEvent_of_pending_nil h, State.takeEvent_of_pending_nil h]

/-- The `RESET` event on a state with another schedule: the reset state, with the driver's fields kept (R260). -/
theorem State.resetEvent_with_pending (s : State) (rest : List Event) :
    ({ s with pending := rest } : State).resetEvent =
      { State.reset with keys := s.keys, rnd := s.rnd, pending := rest, freeIndex := s.freeIndex } := rfl

end Sys2Proof.Machine
end

section
/-! PROOF. The step takes one event of the driver (R13, R265). -/

namespace Sys2Proof.Machine

/-- Settles O9: each scheduled kind is `step_of_pending_cons` at that event, the free event `step_of_pending_nil`. -/
theorem stepTakesOneEvent : Obligations.StepTakesOneEvent := by
  intro s
  refine ⟨?cycle, ?tick, ?reset, ?load, ?free⟩
  case cycle =>
    intro keys rnd rest h
    rw [step_of_pending_cons h, runEvent_cycle]
  case tick =>
    intro rest h
    rw [step_of_pending_cons h, runEvent_tick]
  case reset =>
    intro rest h
    rw [step_of_pending_cons h, runEvent_reset, State.resetEvent_with_pending]
  case load =>
    intro image rest h
    rw [step_of_pending_cons h, runEvent_load]
  case free => exact step_of_pending_nil

end Sys2Proof.Machine
end

section
/-! SUPPORT. What an instruction can do, said once for every instruction: it raises its fatal condition (R226), or it
completes with `pc` as the table of R125 says and one of a few kinds of effect on the rest of the state. -/

namespace Sys2Proof.Machine

/-! ### Fault entry (R220, R226) -/

/-- An instruction whose fatal condition holds enters the fault, with its own encoding as `FAULT_WORD`. -/
theorem exec_of_faultCondition {i : Instr} {s : State} (h : faultCondition i s) :
    ∃ c, mayRaise i = some c ∧ exec i s = .next (s.raise c (encode i)) := by
  cases i with
  | call nnn => exact ⟨_, rfl, exec_call_of_full s nnn h⟩
  | ret => exact ⟨_, rfl, exec_ret_of_empty s h⟩
  | draw x y n => exact ⟨_, rfl, exec_draw_of_out s x y n h⟩
  | storeBcd x => exact ⟨_, rfl, exec_storeBcd_of_out s x (by simp only [faultCondition] at h; omega)⟩
  | storeRegs x => exact ⟨_, rfl, exec_storeRegs_of_out s x h⟩
  | loadRegs x => exact ⟨_, rfl, exec_loadRegs_of_out s x h⟩
  | skipIfKeyDown x => exact ⟨_, rfl, exec_skipIfKeyDown_of_out s x h⟩
  | skipIfKeyUp x => exact ⟨_, rfl, exec_skipIfKeyUp_of_out s x h⟩
  | _ => exact h.elim

/-- No instruction raises the fetch's own condition (R220). -/
theorem mayRaise_ne_fetchOutOfRange (i : Instr) : mayRaise i ≠ some .fetchOutOfRange := by
  cases i <;> simp [mayRaise]

/-- The encoding of an instruction that can raise a fault decodes to that instruction. -/
theorem decode_encode_of_mayRaise {i : Instr} {c : FatalCode} (h : mayRaise i = some c) :
    decode (encode i) = .ok i := by
  cases i with
  | call nnn => exact Laws.RoundTrip.call nnn rfl
  | ret => exact Laws.RoundTrip.ret rfl
  | draw x y n => exact Laws.RoundTrip.draw x y n rfl
  | storeBcd x => exact Laws.RoundTrip.storeBcd x rfl
  | storeRegs x => exact Laws.RoundTrip.storeRegs x rfl
  | loadRegs x => exact Laws.RoundTrip.loadRegs x rfl
  | skipIfKeyDown x => exact Laws.RoundTrip.skipIfKeyDown x rfl
  | skipIfKeyUp x => exact Laws.RoundTrip.skipIfKeyUp x rfl
  | _ => cases h

/-! ### Completion -/

/-- The instructions that write `I` (R27). -/
def WritesIdx (i : Instr) : Prop := (∃ nnn, i = .setIndex nnn) ∨ (∃ x, i = .addIndex x) ∨ ∃ x, i = .loadFontAddr x

/-- What a completed instruction did to a state: most write listed registers, `pc` and the result alone; each other piece
of the state has its own few instructions (R124). -/
inductive Effect (s : State) : Instr → State → Prop
  | regs {i : Instr} (v : Vector Byte 16) (pc : Word) (r : CycleResult)
      (keeps : KeepsRegs (writesRegs i) s { s with v := v, pc := pc, result := some r }) :
      Effect s i { s with v := v, pc := pc, result := some r }
  | index {i : Instr} (hi : WritesIdx i) (w : Word) : Effect s i (s.setIdx w).advance
  | call (nnn : Addr) (h : s.sp.val < 16) : Effect s (.call nnn) (State.goTo
      { s with stack := s.stack.set s.sp.val s.pc h, sp := ⟨s.sp.val + 1, by omega⟩ } (absAddr nnn))
  | ret (h : 0 < s.sp.val) : Effect s .ret (State.goTo
      { s with sp := ⟨s.sp.val - 1, by have := s.sp.isLt; omega⟩ }
      (s.stack[s.sp.val - 1]'(by have := s.sp.isLt; omega) + 2))
  | storeDelay (x : RegNum) : Effect s (.storeDelay x) (s.setDt (s.reg x)).advance
  | storeSound (x : RegNum) : Effect s (.storeSound x) (s.setSt (s.reg x)).advance
  | storeBcd (x : RegNum) (bs : List Byte) (hlen : bs.length = 3) (hfit : s.idx.toNat + bs.length ≤ 0x1000) :
      Effect s (.storeBcd x) (s.setMem (Memory.writeBytes s.mem s.idx.toNat bs)).advance
  | storeRegs (x : RegNum) (bs : List Byte) (hlen : bs.length = x.toNat + 1) (hfit : s.idx.toNat + bs.length ≤ 0x1000) :
      Effect s (.storeRegs x) (s.setMem (Memory.writeBytes s.mem s.idx.toNat bs)).advance
  | clearScreen : Effect s .clearScreen (s.setFb fbClear).advance
  | draw (x y : RegNum) (n : Height) (f : Frame) (hit : Bool) :
      Effect s (.draw x y n) ((s.setFb f).setFlag hit).advance

/-- `pc` and the result written, and nothing else. -/
theorem Effect.setPc {s : State} {i : Instr} (pc : Word) (r : CycleResult) :
    Effect s i { s with pc := pc, result := some r } :=
  .regs s.v pc r fun _ _ => rfl

/-- One listed register written. -/
theorem Effect.setReg {s : State} {i : Instr} {x : RegNum} (b : Byte) (hi : writesRegs i = [x]) :
    Effect s i (s.setReg x b).advance :=
  .regs _ _ _ (hi ▸ (keepsAllButRegs_setReg s x b).1)

/-- A listed register written, then the flag (R173). -/
theorem Effect.setRegFlag {s : State} {i : Instr} {x : RegNum} (b : Byte) (f : Bool) (hi : writesRegs i = [x, VF]) :
    Effect s i (s.setRegFlag x b f).advance :=
  .regs _ _ _ (hi ▸ (keepsAllButRegs_setRegFlag s x b f).1)

/-- load-regs leaves the registers above `Vx` alone (R185). -/
theorem keepsRegs_loadRegs (s : State) (x : RegNum) (bs : List Byte) (hlen : bs.length = x.toNat + 1) :
    KeepsRegs (writesRegs (.loadRegs x)) s (s.setRegsFrom 0 bs) := by
  intro r hr
  have hx := x.isLt
  rw [State.reg_setRegsFrom s 0 bs (by omega), dif_neg]
  intro h
  apply hr
  simp only [writesRegs, List.mem_map, List.mem_range]
  exact ⟨r.toNat, by omega, by simp⟩

/-- An instruction whose fatal condition does not hold completes: `pc` is as R125 lists, and the rest is one of the
effects. -/
theorem exec_of_not_faultCondition {i : Instr} {s : State} (h : ¬ faultCondition i s) :
    ∃ t, exec i s = .next t ∧ t.pc = pcAfter i s ∧ Effect s i t := by
  cases i with
  | clearScreen => exact ⟨_, rfl, rfl, .clearScreen⟩
  | ret =>
    have hsp : 0 < s.sp.val := Nat.pos_of_ne_zero h
    exact ⟨_, exec_ret_of_nonempty s hsp, rfl, .ret hsp⟩
  | call nnn =>
    have hsp : s.sp.val < 16 := by have := s.sp.isLt; simp only [faultCondition] at h; omega
    exact ⟨_, exec_call_of_room s nnn hsp, rfl, .call nnn hsp⟩
  | jump nnn => exact ⟨_, rfl, rfl, .setPc _ _⟩
  | jumpOffset nnn => exact ⟨_, rfl, rfl, .setPc _ _⟩
  | machineRoutine nnn => exact ⟨_, rfl, rfl, .setPc _ _⟩
  | skipEqImm x kk => exact ⟨_, rfl, by simp [pcAfter], .setPc _ _⟩
  | skipNeqImm x kk => exact ⟨_, rfl, by simp [pcAfter], .setPc _ _⟩
  | skipEqReg x y => exact ⟨_, rfl, by simp [pcAfter], .setPc _ _⟩
  | skipNeqReg x y => exact ⟨_, rfl, by simp [pcAfter], .setPc _ _⟩
  | skipIfKeyDown x =>
    exact ⟨_, exec_skipIfKeyDown_of_in s x (Nat.not_lt.1 h), rfl, .setPc _ _⟩
  | skipIfKeyUp x =>
    exact ⟨_, exec_skipIfKeyUp_of_in s x (Nat.not_lt.1 h), by simp [pcAfter], .setPc _ _⟩
  | loadImm x kk => exact ⟨_, rfl, rfl, .setReg _ rfl⟩
  | addImm x kk => exact ⟨_, rfl, rfl, .setReg _ rfl⟩
  | assign x y => exact ⟨_, rfl, rfl, .setReg _ rfl⟩
  | orReg x y => exact ⟨_, rfl, rfl, .setReg _ rfl⟩
  | andReg x y => exact ⟨_, rfl, rfl, .setReg _ rfl⟩
  | xorReg x y => exact ⟨_, rfl, rfl, .setReg _ rfl⟩
  | random x kk => exact ⟨_, rfl, rfl, .setReg _ rfl⟩
  | loadDelay x => exact ⟨_, rfl, rfl, .setReg _ rfl⟩
  | addWithCarry x y => exact ⟨_, rfl, rfl, .setRegFlag _ _ rfl⟩
  | subNotBorrow x y => exact ⟨_, rfl, rfl, .setRegFlag _ _ rfl⟩
  | shiftRight x y => exact ⟨_, rfl, rfl, .setRegFlag _ _ rfl⟩
  | subRevNotBorrow x y => exact ⟨_, rfl, rfl, .setRegFlag _ _ rfl⟩
  | shiftLeft x y => exact ⟨_, rfl, rfl, .setRegFlag _ _ rfl⟩
  | setIndex nnn => exact ⟨_, rfl, rfl, .index (.inl ⟨nnn, rfl⟩) _⟩
  | addIndex x => exact ⟨_, rfl, rfl, .index (.inr (.inl ⟨x, rfl⟩)) _⟩
  | loadFontAddr x => exact ⟨_, rfl, rfl, .index (.inr (.inr ⟨x, rfl⟩)) _⟩
  | storeDelay x => exact ⟨_, rfl, rfl, .storeDelay x⟩
  | storeSound x => exact ⟨_, rfl, rfl, .storeSound x⟩
  | draw x y n => exact ⟨_, exec_draw_of_in s x y n h, rfl, .draw x y n _ _⟩
  | storeBcd x =>
    simp only [faultCondition] at h
    exact ⟨_, exec_storeBcd_of_in s x (by omega), rfl, .storeBcd x _ rfl (by rw [length_bcdDigits]; omega)⟩
  | storeRegs x =>
    simp only [faultCondition] at h
    exact ⟨_, exec_storeRegs_of_in s x (by omega), rfl,
      .storeRegs x _ (State.length_regsUpTo _ _) (by rw [State.length_regsUpTo]; omega)⟩
  | loadRegs x =>
    refine ⟨_, exec_loadRegs_of_in s x (Nat.not_lt.1 h), ?_, ?_⟩
    · rw [State.setRegsFrom_eq]; rfl
    · have hkeeps := keepsRegs_loadRegs s x _ (Memory.length_readBytes s.mem s.idx.toNat (x.toNat + 1))
      rw [State.setRegsFrom_eq] at hkeeps ⊢
      exact .regs _ _ _ hkeeps
  | waitForKey x =>
    cases hk : lowestKey s with
    | none =>
      have hkeys := (lowestKey_eq_none_iff s).1 hk
      exact ⟨_, exec_waitForKey_of_none s x hkeys, (if_pos hkeys).symm, .setPc _ _⟩
    | some k =>
      have hkeys : s.keys ≠ 0 := fun e => by simp [(lowestKey_eq_none_iff s).2 e] at hk
      exact ⟨_, exec_waitForKey_of_some s x k hk, (if_neg hkeys).symm, .setReg _ rfl⟩

/-- The two ways an instruction ends (R227): fault entry, exactly under its condition, or completion. -/
theorem exec_cases {i : Instr} {s t : State} (h : exec i s = .next t) :
    (faultCondition i s ∧ ∃ c, mayRaise i = some c ∧ t = s.raise c (encode i)) ∨
      (¬ faultCondition i s ∧ t.pc = pcAfter i s ∧ Effect s i t) := by
  by_cases hc : faultCondition i s
  · obtain ⟨c, hm, he⟩ := exec_of_faultCondition hc
    exact .inl ⟨hc, c, hm, by simpa [he] using h.symm⟩
  · obtain ⟨u, he, hpc, heff⟩ := exec_of_not_faultCondition hc
    obtain rfl : u = t := by simpa [he] using h
    exact .inr ⟨hc, hpc, heff⟩

/-! ### What a completed instruction leaves unchanged -/

section effects

variable {s t : State} {i : Instr}

theorem Effect.keepsRegs (h : Effect s i t) : KeepsRegs (writesRegs i) s t := by
  cases h with
  | regs v pc r keeps => exact keeps
  | draw x y n f hit =>
    intro r hr
    rw [writesRegs, List.mem_singleton] at hr
    exact State.reg_setReg_ne (s.setFb f) (flagByte hit) hr
  | _ => exact fun _ _ => rfl

theorem Effect.keepsIdx (h : Effect s i t) : KeepsIdx s t ∨ WritesIdx i := by
  cases h with
  | index hi w => exact .inr hi
  | _ => exact .inl rfl

theorem Effect.keepsStack (h : Effect s i t) : KeepsStack s t ∨ (∃ nnn, i = .call nnn) ∨ i = .ret := by
  cases h with
  | call nnn hsp => exact .inr (.inl ⟨nnn, rfl⟩)
  | ret hsp => exact .inr (.inr rfl)
  | _ => exact .inl ⟨rfl, rfl⟩

theorem Effect.keepsDt (h : Effect s i t) : t.dt = s.dt ∨ ∃ x, i = .storeDelay x := by
  cases h with
  | storeDelay x => exact .inr ⟨x, rfl⟩
  | _ => exact .inl rfl

theorem Effect.keepsSt (h : Effect s i t) : t.st = s.st ∨ ∃ x, i = .storeSound x := by
  cases h with
  | storeSound x => exact .inr ⟨x, rfl⟩
  | _ => exact .inl rfl

/-- A multi-byte store leaves every byte outside its range alone. -/
theorem keepsMemOutside_writeBytes (s : State) (base : Nat) (bs : List Byte) :
    KeepsMemOutside base bs.length s (s.setMem (Memory.writeBytes s.mem base bs)).advance := fun a ha => by
  rw [State.advance_readByte, State.readByte_setMem_writeBytes, dif_neg ha]

theorem Effect.keepsMem (h : Effect s i t) :
    KeepsMem s t ∨ (∃ x, i = .storeBcd x ∧ KeepsMemOutside s.idx.toNat 3 s t) ∨
      ∃ x, i = .storeRegs x ∧ KeepsMemOutside s.idx.toNat (x.toNat + 1) s t := by
  cases h with
  | storeBcd x bs hlen hfit => exact .inr (.inl ⟨x, rfl, hlen ▸ keepsMemOutside_writeBytes s _ bs⟩)
  | storeRegs x bs hlen hfit => exact .inr (.inr ⟨x, rfl, hlen ▸ keepsMemOutside_writeBytes s _ bs⟩)
  | _ => exact .inl fun _ => rfl

theorem Effect.keepsDisplay (h : Effect s i t) :
    KeepsDisplay s t ∨ i = .clearScreen ∨ ∃ x y n, i = .draw x y n := by
  cases h with
  | clearScreen => exact .inr (.inl rfl)
  | draw x y n f hit => exact .inr (.inr ⟨x, y, n, rfl⟩)
  | _ => exact .inl fun _ => rfl

theorem Effect.keepsLatch (h : Effect s i t) : KeepsLatch s t := by
  cases h <;> exact ⟨rfl, rfl, rfl⟩

theorem Effect.keepsDriver (h : Effect s i t) : KeepsDriver s t := by
  cases h <;> exact ⟨rfl, rfl, rfl, rfl, rfl⟩

end effects

end Sys2Proof.Machine
end

section
/-! SUPPORT. What keeps the invariant `CoreInv`: states with the same tuple, fault entry, and a completed instruction. -/

namespace Sys2Proof.Machine

/-- A condition of R220 reads the registers, `I` and `SP` alone. -/
theorem faultCondition_congr {s t : State} (hv : t.v = s.v) (hidx : t.idx = s.idx) (hsp : t.sp = s.sp) (i : Instr) :
    faultCondition i t ↔ faultCondition i s := by
  cases i <;> simp only [faultCondition, State.reg, hv, hidx, hsp]

/-- Every live slot holds the address of a call (R140). -/
def LiveSlotsInRange (s : State) : Prop := ∀ k : Fin 16, k.val < s.sp.val → s.stack[k].toNat ≤ 0xFFE

/-- The invariant is about the spec's tuple, and `awaitingLoad` may only go down. -/
theorem CoreInv.of_sameCore {s t : State} (hs : CoreInv s) (h : SameCore s t)
    (hload : t.awaitingLoad = true → s.awaitingLoad = true) : CoreInv t := by
  obtain ⟨hv, hidx, hpc, hsp, hstack, hdt, hst, hmem, hfb, hfault, hword, haddr⟩ := h
  constructor
  case memCanonical => rw [hmem]; exact hs.memCanonical
  case pcBound => rw [hpc]; exact hs.pcBound
  case liveSlots => rw [hsp, hstack]; exact hs.liveSlots
  case latchClear => rw [hfault, hword, haddr]; exact hs.latchClear
  case latchPc => rw [hfault, haddr, hpc]; exact hs.latchPc
  case latchFetch => rw [hfault, hword, hpc]; exact hs.latchFetch
  case latchInstr => simpa only [hfault, hword, hpc, faultCondition_congr hv hidx hsp] using hs.latchInstr
  case freshBeforeLoad =>
    intro ht
    have hr := hs.freshBeforeLoad (hload ht)
    simpa only [SameCore, hv, hidx, hpc, hsp, hstack, hdt, hst, hmem, hfb, hfault, hword, haddr] using hr

/-- The invariant of a running core past its load. -/
theorem coreInv_of_running {s : State} (hmem : Memory.wf s.mem = true) (hpc : s.pc.toNat ≤ 0x10FE)
    (hslots : LiveSlotsInRange s) (hfault : s.fault = none) (hlatch : s.faultWord = 0 ∧ s.faultPc = 0)
    (hload : s.awaitingLoad = false) : CoreInv s where
  memCanonical := hmem
  pcBound := hpc
  liveSlots := hslots
  latchClear _ := hlatch
  latchPc h := absurd hfault h
  latchFetch h := by simp [hfault] at h
  latchInstr _ h := by simp [hfault] at h
  freshBeforeLoad h := by simp [hload] at h

/-! ### Fault entry -/

/-- A fetch fault on a core past its load keeps the invariant (R68). -/
theorem CoreInv.raise_fetch {s : State} (hs : CoreInv s) (hload : s.awaitingLoad = false) (hpc : 0xFFF ≤ s.pc.toNat) :
    CoreInv (s.raise .fetchOutOfRange 0x0000) where
  memCanonical := hs.memCanonical
  pcBound := hs.pcBound
  liveSlots := hs.liveSlots
  latchClear := nofun
  latchPc _ := rfl
  latchFetch _ := ⟨rfl, hpc⟩
  latchInstr c hc hne := absurd (Option.some.inj hc).symm hne
  freshBeforeLoad h := by simp [hload] at h

/-- So does the fault of an instruction whose condition holds (R226). -/
theorem CoreInv.raise_instr {s : State} {i : Instr} {c : FatalCode} (hs : CoreInv s) (hload : s.awaitingLoad = false)
    (hpc : s.pc.toNat ≤ 0xFFE) (hm : mayRaise i = some c) (hc : faultCondition i s) :
    CoreInv (s.raise c (encode i)) where
  memCanonical := hs.memCanonical
  pcBound := hs.pcBound
  liveSlots := hs.liveSlots
  latchClear := nofun
  latchPc _ := rfl
  latchFetch h := absurd (hm.trans h) (mayRaise_ne_fetchOutOfRange i)
  latchInstr d hd _ := ⟨hpc, i, decode_encode_of_mayRaise hm, hm.trans hd, (faultCondition_congr rfl rfl rfl i).2 hc⟩
  freshBeforeLoad h := by simp [hload] at h

/-! ### A completed instruction -/

/-- The largest value R125 gives `pc` is that of jump-offset, `0xFFF + 0xFF` (R26). -/
theorem pcAfter_le {i : Instr} {s : State} (hpc : s.pc.toNat ≤ 0xFFE) (hslots : LiveSlotsInRange s)
    (hc : ¬ faultCondition i s) : (pcAfter i s).toNat ≤ 0x10FE := by
  have h2 : (s.pc + 2).toNat ≤ 0x10FE := by bv_omega
  have h4 : (s.pc + 4).toNat ≤ 0x10FE := by bv_omega
  cases i with
  | jump nnn | call nnn => simp only [pcAfter]; bv_omega
  | jumpOffset nnn =>
    have := (s.reg V0).isLt
    simp only [pcAfter]; bv_omega
  | ret =>
    have hsp : 0 < s.sp.val := Nat.pos_of_ne_zero hc
    have hslot := hslots ⟨s.sp.val - 1, by have := s.sp.isLt; omega⟩ (by simp; omega)
    simp only [Fin.getElem_fin] at hslot
    simp only [pcAfter]; bv_omega
  | skipEqImm | skipNeqImm | skipEqReg | skipNeqReg | skipIfKeyDown | skipIfKeyUp =>
    simp only [pcAfter]; split <;> assumption
  | waitForKey x => simp only [pcAfter]; split <;> omega
  | machineRoutine nnn => simp only [pcAfter]; omega
  | _ => exact h2

theorem Effect.memCanonical {s t : State} {i : Instr} (h : Effect s i t) (hmem : Memory.wf s.mem = true) :
    Memory.wf t.mem = true := by
  cases h with
  | storeBcd x bs hlen hfit => exact Memory.wf_writeBytes s.mem _ bs hmem hfit
  | storeRegs x bs hlen hfit => exact Memory.wf_writeBytes s.mem _ bs hmem hfit
  | _ => exact hmem

/-- A call pushes an address it was fetched from, and a return frees a slot. -/
theorem Effect.liveSlots {s t : State} {i : Instr} (h : Effect s i t) (hpc : s.pc.toNat ≤ 0xFFE)
    (hslots : LiveSlotsInRange s) : LiveSlotsInRange t := by
  cases h with
  | call nnn hsp =>
    intro k hk
    by_cases hnew : s.sp.val = k.val
    · simpa [Vector.getElem_set, hnew] using hpc
    · have hold : k.val < s.sp.val := by simp at hk; omega
      simpa [Vector.getElem_set, hnew] using hslots k hold
  | ret hsp => exact fun k hk => hslots k (by simp at hk; omega)
  | _ => exact hslots

/-- A completed instruction keeps the invariant of a running core past its load. -/
theorem CoreInv.of_effect {s t : State} {i : Instr} (hs : CoreInv s) (hfault : s.fault = none)
    (hload : s.awaitingLoad = false) (hpc : s.pc.toNat ≤ 0xFFE) (hc : ¬ faultCondition i s) (hpcAfter : t.pc = pcAfter i s)
    (h : Effect s i t) : CoreInv t := by
  obtain ⟨hf, hw, hp⟩ := h.keepsLatch
  obtain ⟨-, -, hl, -, -⟩ := h.keepsDriver
  apply coreInv_of_running
  case hmem => exact h.memCanonical hs.memCanonical
  case hpc => rw [hpcAfter]; exact pcAfter_le hpc hs.liveSlots hc
  case hslots => exact h.liveSlots hpc hs.liveSlots
  case hfault => rw [hf, hfault]
  case hlatch => rw [hw, hp]; exact hs.latchClear hfault
  case hload => rw [hl, hload]

end Sys2Proof.Machine
end

section
/-! SUPPORT. What the event `RESET` gives (R36, R260): the font, the zeros, and the tuple of the reset state. -/

namespace Sys2Proof.Machine

/-- The font bytes of the reset contents, glyph by glyph (R33). -/
theorem resetByte_font (d : Fin 16) (k : Fin 5) : resetByte (0x050 + 5 * d.val + k.val) = standardFont[d][k] := by
  have hrange : 0x050 ≤ 0x050 + 5 * d.val + k.val ∧ 0x050 + 5 * d.val + k.val < 0x0A0 := by omega
  have hglyph : (0x050 + 5 * d.val + k.val - 0x050) / 5 = d.val := by omega
  have hrow : (0x050 + 5 * d.val + k.val - 0x050) % 5 = k.val := by omega
  rw [resetByte, dif_pos hrange]
  simp only [hglyph, hrow]
  rfl

/-- Outside the font the reset contents are 0. -/
theorem resetByte_of_not_font {a : Nat} (h : a < 0x050 ∨ 0x0A0 ≤ a) : resetByte a = 0 := by
  rw [resetByte, dif_neg (by omega)]

/-- After `RESET` memory reads as its reset contents. -/
theorem State.resetEvent_readByte (s : State) (a : Nat) : s.resetEvent.readByte a = resetByte a := rfl

/-- `RESET` gives the spec's tuple of the reset state, whatever the driver's fields hold. -/
theorem sameCore_resetEvent (s : State) : SameCore State.reset s.resetEvent :=
  ⟨rfl, rfl, rfl, rfl, rfl, rfl, rfl, rfl, rfl, rfl, rfl, rfl⟩

theorem State.resetEvent_reg (s : State) (x : RegNum) : s.resetEvent.reg x = 0 := by
  simp [State.reg, State.resetEvent, State.reset]

theorem State.resetEvent_stack (s : State) (k : Fin 16) : s.resetEvent.stack[k] = 0 := by
  simp [State.resetEvent, State.reset]

end Sys2Proof.Machine
end

section
/-! SUPPORT. The invariant holds after `RESET`, and every event keeps it. -/

namespace Sys2Proof.Machine

/-- The reset memory is canonical, the stack is empty and the latch is clear. -/
theorem coreInv_reset : CoreInv State.reset where
  memCanonical := Memory.wf_reset
  pcBound := by decide
  liveSlots _ h := absurd h (Nat.not_lt_zero _)
  latchClear _ := ⟨rfl, rfl⟩
  latchPc h := absurd rfl h
  latchFetch := nofun
  latchInstr := nofun
  freshBeforeLoad _ := ⟨rfl, rfl, rfl, rfl, rfl, rfl, rfl, rfl, rfl, rfl, rfl, rfl⟩

/-- Taking an event off the schedule changes the driver's side alone. -/
theorem CoreInv.takeEvent {s : State} (hs : CoreInv s) : CoreInv s.takeEvent := by
  cases hp : s.pending with
  | nil =>
    rw [State.takeEvent_of_pending_nil hp]
    exact hs.of_sameCore ⟨rfl, rfl, rfl, rfl, rfl, rfl, rfl, rfl, rfl, rfl, rfl, rfl⟩ id
  | cons e rest =>
    rw [State.takeEvent_of_pending_cons hp]
    exact hs.of_sameCore ⟨rfl, rfl, rfl, rfl, rfl, rfl, rfl, rfl, rfl, rfl, rfl, rfl⟩ id

theorem CoreInv.tick {s : State} (hs : CoreInv s) : CoreInv (tick s) where
  memCanonical := hs.memCanonical
  pcBound := hs.pcBound
  liveSlots := hs.liveSlots
  latchClear := hs.latchClear
  latchPc := hs.latchPc
  latchFetch := hs.latchFetch
  latchInstr := hs.latchInstr
  freshBeforeLoad h := by
    obtain ⟨hv, hidx, hpc, hsp, hstack, hdt, hst, hrest⟩ := hs.freshBeforeLoad h
    exact ⟨hv, hidx, hpc, hsp, hstack, congrArg countDown hdt, congrArg countDown hst, hrest⟩

/-- A load answers only with an image that fits, and ends its window (R263). -/
theorem loadImage_eq_next {image : List Byte} {s t : State} (h : loadImage image s = .next t) :
    image.length ≤ 3584 ∧ t = { s with mem := Memory.writeBytes s.mem 0x200 image, awaitingLoad := false } := by
  unfold loadImage at h
  split at h
  · cases h
  · split at h
    · cases h
    · next hlen => cases h; exact ⟨Nat.not_lt.1 hlen, rfl⟩

theorem CoreInv.loadImage {image : List Byte} {s t : State} (hs : CoreInv s) (h : loadImage image s = .next t) :
    CoreInv t := by
  obtain ⟨hlen, rfl⟩ := loadImage_eq_next h
  exact {
    memCanonical := Memory.wf_writeBytes s.mem 0x200 image hs.memCanonical (by omega)
    pcBound := hs.pcBound
    liveSlots := hs.liveSlots
    latchClear := hs.latchClear
    latchPc := hs.latchPc
    latchFetch := hs.latchFetch
    latchInstr := hs.latchInstr
    freshBeforeLoad := nofun }

/-- An instruction at an address a fetch accepts keeps the invariant of a running core past its load. -/
theorem CoreInv.exec {i : Instr} {s t : State} (hs : CoreInv s) (hfault : s.fault = none) (hload : s.awaitingLoad = false)
    (hpc : s.pc.toNat ≤ 0xFFE) (h : exec i s = .next t) : CoreInv t := by
  rcases exec_cases h with ⟨hc, c, hm, rfl⟩ | ⟨hc, hpcAfter, he⟩
  · exact hs.raise_instr hload hpc hm hc
  · exact hs.of_effect hfault hload hpc hc hpcAfter he

/-- A CYCLE keeps the invariant, in each of its four ways (R120, R228). -/
theorem CoreInv.cycle {keys : Keys} {rnd : Byte} {s t : State} (hs : CoreInv s) (h : cycle keys rnd s = .next t) :
    CoreInv t := by
  have hp : CoreInv (s.present keys rnd) := hs.of_sameCore (sameCore_present s keys rnd) nofun
  cases hfault : s.fault with
  | some c =>
    rw [cycle_of_halted keys rnd s hfault] at h
    cases h
    exact hp.of_sameCore (sameCore_setResult _ _) id
  | none =>
    cases hfetch : s.fetch with
    | none =>
      rw [cycle_of_no_fetch keys rnd s hfault hfetch] at h
      cases h
      exact hp.raise_fetch rfl ((State.fetch_eq_none_iff s).1 hfetch)
    | some w =>
      cases hd : decode w with
      | error e =>
        rw [cycle_of_reject keys rnd s hfault hfetch hd] at h
        cases h
        exact hp.of_sameCore (sameCore_setResult _ _) id
      | ok i =>
        rw [cycle_of_instr keys rnd s hfault hfetch hd] at h
        exact hp.exec hfault rfl ((State.fetch_eq_some_iff s w).1 hfetch).1 h

/-- Every event keeps the invariant. -/
theorem CoreInv.runEvent {e : Event} {s t : State} (hs : CoreInv s) (h : runEvent e s = .next t) : CoreInv t := by
  cases e with
  | reset => cases h; exact coreInv_reset.of_sameCore (sameCore_resetEvent s) fun _ => rfl
  | load image => exact hs.loadImage h
  | cycle keys rnd => exact hs.cycle h
  | tick => cases h; exact hs.tick

end Sys2Proof.Machine
end

section
/-! PROOF. The state's family: the reset values (R36), what an instruction writes (R22, R124), and the invariant. -/

namespace Sys2Proof.Machine

/-! ### The reset values -/

/-- Settles O21: the tuple is `State.reset`'s, its memory is read off the font lemmas. -/
theorem resetGivesTheListedValues : Obligations.ResetGivesTheListedValues := by
  intro s
  refine ⟨s.resetEvent, rfl, sameCore_resetEvent s, rfl, s.resetEvent_reg, rfl, rfl, rfl, s.resetEvent_stack, rfl, rfl,
    ?font, ?zero, fbGet_fbClear, rfl, rfl, rfl⟩
  case font => exact fun d k => by rw [State.resetEvent_readByte, resetByte_font]
  case zero => exact fun a ha => by rw [State.resetEvent_readByte, resetByte_of_not_font (by omega)]

/-! ### What an instruction writes -/

/-- Settles O17: fault entry writes no register, and a completed instruction only those of its effect. -/
theorem registersWrittenAsListed : Obligations.RegistersWrittenAsListed := by
  intro i s t h
  rcases exec_cases h with ⟨-, c, -, rfl⟩ | ⟨-, -, he⟩
  · exact fun _ _ => rfl
  · exact he.keepsRegs

/-- Settles O18: fault entry writes the latch alone, and a completed instruction the piece of its effect. -/
theorem stateWrittenOnlyByItsInstructions : Obligations.StateWrittenOnlyByItsInstructions := by
  intro i s t h
  rcases exec_cases h with ⟨-, c, -, rfl⟩ | ⟨-, -, he⟩
  · obtain ⟨-, -, -, -, hres, -, hidx, hstack, ⟨hdt, hst⟩, hmem, hfb, hdriver⟩ := onlyLatchSet_raise s c (encode i)
    exact ⟨.inl hidx, .inl hstack, .inl hdt, .inl hst, .inl hmem, .inl hfb, .inr ⟨_, _, _, hres⟩, hdriver⟩
  · exact ⟨he.keepsIdx, he.keepsStack, he.keepsDt, he.keepsSt, he.keepsMem, he.keepsDisplay, .inl he.keepsLatch,
      he.keepsDriver⟩

/-! ### The invariant -/

/-- Settles O25: the invariant of the reset state, field by field in `coreInv_reset`. -/
theorem invariantAtReset : Obligations.InvariantAtReset := coreInv_reset

/-- Settles O26: taking the event keeps the invariant, and so does running it. -/
theorem stepKeepsInvariant : Obligations.StepKeepsInvariant :=
  fun _ _ hs h => hs.takeEvent.runEvent h

end Sys2Proof.Machine
end

section
/-! SUPPORT. The opcode map by family (R91, R95): a row matches words of its own family only, and within it by the
sub-selector its mask keeps. So a word selects the row of the instruction it decodes to. -/

namespace Sys2Proof

/-! ### A word under the masks of R95 -/

theorem and_familyMask (w : Word) : w &&& 0xF000 = familyOf w ++ 0#12 := by
  have hmask : (0xF000 : Word) = BitVec.allOnes 4 ++ 0#12 := rfl
  rw [hmask, eq_append_nnn w, BitVec.and_append, BitVec.and_allOnes, BitVec.and_zero, familyOf_nnn]

theorem and_nibbleMask (w : Word) : w &&& 0xF00F = familyOf w ++ 0#4 ++ 0#4 ++ fieldN w := by
  have hmask : (0xF00F : Word) = BitVec.allOnes 4 ++ 0#4 ++ 0#4 ++ BitVec.allOnes 4 := rfl
  rw [hmask, eq_append_xyn w, BitVec.and_append, BitVec.and_append, BitVec.and_append, BitVec.and_allOnes,
    BitVec.and_zero, BitVec.and_zero, BitVec.and_allOnes, familyOf_xyn, fieldN_xyn]

theorem and_byteMask (w : Word) : w &&& 0xF0FF = familyOf w ++ 0#4 ++ fieldKK w := by
  have hmask : (0xF0FF : Word) = BitVec.allOnes 4 ++ 0#4 ++ BitVec.allOnes 8 := rfl
  rw [hmask, eq_append_xkk w, BitVec.and_append, BitVec.and_append, BitVec.and_allOnes, BitVec.and_zero,
    BitVec.and_allOnes, familyOf_xkk, fieldKK_xkk]

/-! ### The four kinds of row, and when each matches a word of its family -/

/-- A row that matches one word. -/
def OpcodeRow.ofWord (k : Nat) (p : Word) : OpcodeRow := ⟨k, p, 0xFFFF⟩

/-- A row that matches the whole family `f`. -/
def OpcodeRow.ofFamily (k : Nat) (f : BitVec 4) : OpcodeRow := ⟨k, f ++ 0#12, 0xF000⟩

/-- A row of family `f` with the 4-bit sub-selector `n`. -/
def OpcodeRow.ofNibble (k : Nat) (f n : BitVec 4) : OpcodeRow := ⟨k, f ++ 0#4 ++ 0#4 ++ n, 0xF00F⟩

/-- A row of family `f` with the 8-bit sub-selector `b`. -/
def OpcodeRow.ofByte (k : Nat) (f : BitVec 4) (b : Byte) : OpcodeRow := ⟨k, f ++ 0#4 ++ b, 0xF0FF⟩

section kinds

variable {w : Word} {f : BitVec 4} (k : Nat)

theorem OpcodeRow.matches_ofWord (p : Word) : (OpcodeRow.ofWord k p).matches w = true ↔ w = p := by
  have hmask : w &&& 0xFFFF = w := BitVec.and_allOnes
  rw [OpcodeRow.matches, OpcodeRow.ofWord, hmask, beq_iff_eq]

theorem OpcodeRow.matches_ofFamily (hf : familyOf w = f) : (OpcodeRow.ofFamily k f).matches w = true := by
  rw [OpcodeRow.matches, OpcodeRow.ofFamily, and_familyMask, hf, beq_self_eq_true]

theorem OpcodeRow.matches_ofNibble (hf : familyOf w = f) (n : BitVec 4) :
    (OpcodeRow.ofNibble k f n).matches w = true ↔ fieldN w = n := by
  rw [OpcodeRow.matches, OpcodeRow.ofNibble, and_nibbleMask, hf, beq_iff_eq]
  constructor
  · intro h; simpa only [fieldN_xyn] using congrArg fieldN h
  · intro h; rw [h]

theorem OpcodeRow.matches_ofByte (hf : familyOf w = f) (b : Byte) :
    (OpcodeRow.ofByte k f b).matches w = true ↔ fieldKK w = b := by
  rw [OpcodeRow.matches, OpcodeRow.ofByte, and_byteMask, hf, beq_iff_eq]
  constructor
  · intro h; simpa only [fieldKK_xkk] using congrArg fieldKK h
  · intro h; rw [h]

end kinds

/-! ### The rows of one family -/

/-- The rows of the opcode map whose pattern is of family `f`, in the order of R95. -/
def familyRows (f : BitVec 4) : List OpcodeRow := opcodeMap.filter (familyOf ·.pattern == f)

/-- Every mask of the map keeps the family, so a row matches words of its pattern's family only. -/
theorem OpcodeRow.familyOf_pattern_of_matches {r : OpcodeRow} {w : Word} (hr : r ∈ opcodeMap)
    (h : r.matches w = true) : familyOf r.pattern = familyOf w := by
  have hmasks : ∀ r ∈ opcodeMap, familyOf r.mask = BitVec.allOnes 4 := by decide
  have hw : w &&& r.mask = r.pattern := beq_iff_eq.1 h
  calc familyOf r.pattern = familyOf w &&& familyOf r.mask := by rw [← hw]; exact BitVec.extractLsb'_and
    _ = familyOf w := by rw [hmasks r hr, BitVec.and_allOnes]

/-- A word selects its row among those of its family. -/
theorem selectRow_eq_find?_familyRows (w : Word) :
    selectRow w = ((familyRows (familyOf w)).find? (·.matches w)).map (·.row) := by
  have hfind : opcodeMap.find? (·.matches w) = (familyRows (familyOf w)).find? (·.matches w) := by
    rw [familyRows, List.find?_filter]
    apply List.find?_congr
    intro r hr
    rw [Bool.eq_iff_iff, decide_eq_true_iff, beq_iff_eq]
    exact ⟨fun h => ⟨OpcodeRow.familyOf_pattern_of_matches hr h, h⟩, fun h => h.2⟩
  rw [selectRow, hfind]

theorem familyRows_0 : familyRows 0x0 = [.ofWord 1 0x00E0, .ofWord 2 0x00EE, .ofFamily 35 0x0] := by decide

theorem familyRows_8 : familyRows 0x8 =
    [.ofNibble 10 0x8 0x0, .ofNibble 11 0x8 0x1, .ofNibble 12 0x8 0x2, .ofNibble 13 0x8 0x3, .ofNibble 14 0x8 0x4,
     .ofNibble 15 0x8 0x5, .ofNibble 16 0x8 0x6, .ofNibble 17 0x8 0x7, .ofNibble 18 0x8 0xE] := by decide

theorem familyRows_E : familyRows 0xE = [.ofByte 24 0xE 0x9E, .ofByte 25 0xE 0xA1] := by decide

theorem familyRows_F : familyRows 0xF =
    [.ofByte 26 0xF 0x07, .ofByte 27 0xF 0x0A, .ofByte 28 0xF 0x15, .ofByte 29 0xF 0x18, .ofByte 30 0xF 0x1E,
     .ofByte 31 0xF 0x29, .ofByte 32 0xF 0x33, .ofByte 33 0xF 0x55, .ofByte 34 0xF 0x65] := by decide

/-! ### The row a word selects, family by family -/

section selection

variable {w : Word}

/-- One row of a family beside one branch of the dispatch: where the row matches exactly when the branch is taken, what
is left to compare is the rows and branches after them. -/
theorem find?_row_cons {r : OpcodeRow} {rows : List OpcodeRow} {c : Prop} [Decidable c] {i : Instr}
    {d : Except Reject Instr} (hmatch : r.matches w = true ↔ c) (hrow : r.row = i.row)
    (hrest : (rows.find? (·.matches w)).map (·.row) = d.toOption.map Instr.row) :
    ((r :: rows).find? (·.matches w)).map (·.row) = (if c then .ok i else d).toOption.map Instr.row := by
  by_cases hc : c
  · rw [List.find?_cons, hmatch.2 hc, if_pos hc]; exact congrArg some hrow
  · rw [List.find?_cons, Bool.eq_false_iff.2 (mt hmatch.1 hc), if_neg hc]; exact hrest

/-- A row of a whole family, beside the one operation left. -/
theorem find?_row_ofFamily {f : BitVec 4} {k : Nat} (hf : familyOf w = f) :
    ([OpcodeRow.ofFamily k f].find? (·.matches w)).map (·.row) = some k := by
  rw [List.find?_cons, OpcodeRow.matches_ofFamily k hf]
  rfl

/-- A family with one operation. -/
theorem selectRow_of_single_row {f : BitVec 4} {k : Nat} (hf : familyOf w = f)
    (hrows : familyRows f = [.ofFamily k f]) : selectRow w = some k := by
  rw [selectRow_eq_find?_familyRows, hf, hrows, find?_row_ofFamily hf]

theorem selectRow_family_0 (hf : familyOf w = 0x0) : selectRow w = (decodeLiteral w).toOption.map Instr.row := by
  rw [selectRow_eq_find?_familyRows, hf, familyRows_0]
  iterate 2 refine find?_row_cons (OpcodeRow.matches_ofWord _ _) rfl ?_
  exact find?_row_ofFamily hf

theorem selectRow_family_8 (hf : familyOf w = 0x8) : selectRow w = (decodeReg w).toOption.map Instr.row := by
  rw [selectRow_eq_find?_familyRows, hf, familyRows_8]
  iterate 9 refine find?_row_cons (OpcodeRow.matches_ofNibble _ hf _) rfl ?_
  rfl

theorem selectRow_family_E (hf : familyOf w = 0xE) : selectRow w = (decodeKey w).toOption.map Instr.row := by
  rw [selectRow_eq_find?_familyRows, hf, familyRows_E]
  iterate 2 refine find?_row_cons (OpcodeRow.matches_ofByte _ hf _) rfl ?_
  rfl

theorem selectRow_family_F (hf : familyOf w = 0xF) : selectRow w = (decodeMisc w).toOption.map Instr.row := by
  rw [selectRow_eq_find?_familyRows, hf, familyRows_F]
  iterate 9 refine find?_row_cons (OpcodeRow.matches_ofByte _ hf _) rfl ?_
  rfl

end selection

/-- The decoder follows the opcode map: a word selects the row of the instruction it decodes to, and none if there is
no such instruction. -/
theorem selectRow_eq_row_decode (w : Word) : selectRow w = (decode w).toOption.map Instr.row := by
  rcases family_cases (familyOf w) with h | h | h | h | h | h | h | h | h | h | h | h | h | h | h | h
  · rw [decode_family_0 h, selectRow_family_0 h]
  · rw [decode_family_1 h]; exact selectRow_of_single_row h rfl
  · rw [decode_family_2 h]; exact selectRow_of_single_row h rfl
  · rw [decode_family_3 h]; exact selectRow_of_single_row h rfl
  · rw [decode_family_4 h]; exact selectRow_of_single_row h rfl
  · rw [decode_family_5 h]; exact selectRow_of_single_row h rfl
  · rw [decode_family_6 h]; exact selectRow_of_single_row h rfl
  · rw [decode_family_7 h]; exact selectRow_of_single_row h rfl
  · rw [decode_family_8 h, selectRow_family_8 h]
  · rw [decode_family_9 h]; exact selectRow_of_single_row h rfl
  · rw [decode_family_A h]; exact selectRow_of_single_row h rfl
  · rw [decode_family_B h]; exact selectRow_of_single_row h rfl
  · rw [decode_family_C h]; exact selectRow_of_single_row h rfl
  · rw [decode_family_D h]; exact selectRow_of_single_row h rfl
  · rw [decode_family_E h, selectRow_family_E h]
  · rw [decode_family_F h, selectRow_family_F h]

end Sys2Proof
end

section
/-! SUPPORT. An instruction's word, its two bytes (R60), its number and its row (R95), each from what the word decodes
to. -/

namespace Sys2Proof

/-- Decoding reads the word of a well-formed instruction back: the lemmas of `Laws.RoundTrip`, put together. -/
theorem decode_encode {i : Instr} (h : i.wellFormed = true) : decode (encode i) = .ok i := by
  cases i with
  | clearScreen => exact Laws.RoundTrip.clearScreen h
  | ret => exact Laws.RoundTrip.ret h
  | jump nnn => exact Laws.RoundTrip.jump nnn h
  | call nnn => exact Laws.RoundTrip.call nnn h
  | skipEqImm x kk => exact Laws.RoundTrip.skipEqImm x kk h
  | skipNeqImm x kk => exact Laws.RoundTrip.skipNeqImm x kk h
  | skipEqReg x y => exact Laws.RoundTrip.skipEqReg x y h
  | loadImm x kk => exact Laws.RoundTrip.loadImm x kk h
  | addImm x kk => exact Laws.RoundTrip.addImm x kk h
  | assign x y => exact Laws.RoundTrip.assign x y h
  | orReg x y => exact Laws.RoundTrip.orReg x y h
  | andReg x y => exact Laws.RoundTrip.andReg x y h
  | xorReg x y => exact Laws.RoundTrip.xorReg x y h
  | addWithCarry x y => exact Laws.RoundTrip.addWithCarry x y h
  | subNotBorrow x y => exact Laws.RoundTrip.subNotBorrow x y h
  | shiftRight x y => exact Laws.RoundTrip.shiftRight x y h
  | subRevNotBorrow x y => exact Laws.RoundTrip.subRevNotBorrow x y h
  | shiftLeft x y => exact Laws.RoundTrip.shiftLeft x y h
  | skipNeqReg x y => exact Laws.RoundTrip.skipNeqReg x y h
  | setIndex nnn => exact Laws.RoundTrip.setIndex nnn h
  | jumpOffset nnn => exact Laws.RoundTrip.jumpOffset nnn h
  | random x kk => exact Laws.RoundTrip.random x kk h
  | draw x y n => exact Laws.RoundTrip.draw x y n h
  | skipIfKeyDown x => exact Laws.RoundTrip.skipIfKeyDown x h
  | skipIfKeyUp x => exact Laws.RoundTrip.skipIfKeyUp x h
  | loadDelay x => exact Laws.RoundTrip.loadDelay x h
  | waitForKey x => exact Laws.RoundTrip.waitForKey x h
  | storeDelay x => exact Laws.RoundTrip.storeDelay x h
  | storeSound x => exact Laws.RoundTrip.storeSound x h
  | addIndex x => exact Laws.RoundTrip.addIndex x h
  | loadFontAddr x => exact Laws.RoundTrip.loadFontAddr x h
  | storeBcd x => exact Laws.RoundTrip.storeBcd x h
  | storeRegs x => exact Laws.RoundTrip.storeRegs x h
  | loadRegs x => exact Laws.RoundTrip.loadRegs x h
  | machineRoutine nnn => exact Laws.RoundTrip.machineRoutine nnn h

/-- What a word decodes to is what its stored bytes decode to, the bytes after them left over (R60). -/
theorem decodeBytes_of_decode {w : Word} {i : Instr} (h : decode w = .ok i) (rest : List Byte) :
    decodeBytes (bytesOfWord w ++ rest) = .ok (i, rest) := by
  rw [decodeBytes_bytesOfWord, h]

/-- A 16-bit table word is the word of its number. -/
theorem tableWord_toNat (w : Word) : tableWord 16 w.toNat = w := by
  rw [tableWord, Nat.mod_eq_of_lt w.isLt, BitVec.ofNat_toNat, BitVec.setWidth_eq]

theorem decodeTableWord_of_decode {w : Word} {i : Instr} (h : decode w = .ok i) :
    decodeTableWord 16 w.toNat = some i := by
  have hbytes : decodeBytes (bytesOfWord w) = .ok (i, []) := decodeBytes_of_decode h []
  rw [decodeTableWord, tableWord_toNat, hbytes]

/-- A word that decodes selects its instruction's row (R95). -/
theorem selectRow_of_decode {w : Word} {i : Instr} (h : decode w = .ok i) : selectRow w = some i.row := by
  rw [selectRow_eq_row_decode, h]
  rfl

/-- The first byte of a word is its high byte (R60). -/
theorem toNat_wordOfBytes (hi lo : Byte) : (wordOfBytes hi lo).toNat = hi.toNat * 256 + lo.toNat :=
  toNat_append_eq hi lo

end Sys2Proof
end

section
/-! PROOF. The memory's family: an instruction word in memory and back (R60, R90, R95), and the fetch (R60, R68). -/

namespace Sys2Proof.Machine

/-! ### Decode and encode -/

/-- Settles O2: the word decodes back by `decode_encode`; its bytes, its number and its row follow what it decodes to. -/
theorem decodeEncodeRoundTrip : Obligations.DecodeEncodeRoundTrip := by
  intro i hi
  have h : decode (encode i) = .ok i := decode_encode hi
  exact ⟨h, decodeBytes_of_decode h, decodeTableWord_of_decode h, selectRow_of_decode h⟩

/-! ### The fetch -/

/-- Settles O7: the fetched word is the two bytes at `pc` put together, high byte first. -/
theorem fetchIsBigEndian : Obligations.FetchIsBigEndian := by
  intro s hpc
  exact ⟨_, (s.fetch_eq_some_iff _).2 ⟨hpc, rfl⟩, toNat_wordOfBytes _ _, BitVec.extractLsb'_append_eq_left,
    BitVec.extractLsb'_append_eq_right⟩

/-- Settles O11: with no word to fetch, the CYCLE enters the fault, and fault entry sets the latch alone. -/
theorem fetchBeyondMemoryFaults : Obligations.FetchBeyondMemoryFaults := by
  intro s keys rnd hfault hpc
  have hfetch : s.fetch = none := s.fetch_eq_none_iff.2 hpc
  exact ⟨_, cycle_of_no_fetch keys rnd s hfault hfetch, onlyLatchSet_raise _ _ _, rfl⟩

end Sys2Proof.Machine
end

section
/-! SUPPORT. The decoder read backwards (R94, R98): the words each operation of the second level is decoded from, the
words that are rejected, and the word a decoded instruction is encoded as. -/

namespace Sys2Proof

/-! ### One branch of a dispatch -/

section branch

variable {c : Prop} [Decidable c] {a i : Instr} {d : Except Reject Instr}

/-- An instruction comes from this branch or from the branches after it. -/
theorem ite_ok_cases {P : Prop} (h : (if c then .ok a else d) = .ok i) (hrest : ¬c → d = .ok i → P) :
    (c ∧ i = a) ∨ P := by
  by_cases hc : c
  · rw [if_pos hc] at h; exact .inl ⟨hc, (Except.ok.inj h).symm⟩
  · rw [if_neg hc] at h; exact .inr (hrest hc h)

/-- The last branch before a rejection. -/
theorem ite_ok_error_cases {r : Reject} (h : (if c then Except.ok a else .error r) = .ok i) : c ∧ i = a :=
  (ite_ok_cases h nofun).resolve_right id

/-- A rejection comes from the branches after this one. -/
theorem ite_ok_eq_error_iff {e : Reject} : (if c then .ok a else d) = .error e ↔ ¬c ∧ d = .error e := by
  by_cases hc : c
  · rw [if_pos hc]; exact ⟨nofun, fun h => absurd hc h.1⟩
  · rw [if_neg hc, and_iff_right hc]

end branch

/-! ### What the second level of the dispatch decodes -/

section secondLevel

variable {w : Word} {i : Instr}

theorem decodeLiteral_cases (h : decodeLiteral w = .ok i) :
    (w = 0x00E0 ∧ i = .clearScreen) ∨ (w = 0x00EE ∧ i = .ret) ∨
      (w ≠ 0x00E0 ∧ w ≠ 0x00EE ∧ i = .machineRoutine (fieldNNN w)) :=
  ite_ok_cases h fun h1 h => ite_ok_cases h fun h2 h => ⟨h1, h2, (Except.ok.inj h).symm⟩

theorem decodeReg_cases (h : decodeReg w = .ok i) :
    (fieldN w = 0x0 ∧ i = .assign (fieldX w) (fieldY w)) ∨ (fieldN w = 0x1 ∧ i = .orReg (fieldX w) (fieldY w)) ∨
    (fieldN w = 0x2 ∧ i = .andReg (fieldX w) (fieldY w)) ∨ (fieldN w = 0x3 ∧ i = .xorReg (fieldX w) (fieldY w)) ∨
    (fieldN w = 0x4 ∧ i = .addWithCarry (fieldX w) (fieldY w)) ∨
    (fieldN w = 0x5 ∧ i = .subNotBorrow (fieldX w) (fieldY w)) ∨
    (fieldN w = 0x6 ∧ i = .shiftRight (fieldX w) (fieldY w)) ∨
    (fieldN w = 0x7 ∧ i = .subRevNotBorrow (fieldX w) (fieldY w)) ∨
    (fieldN w = 0xE ∧ i = .shiftLeft (fieldX w) (fieldY w)) := by
  iterate 8 refine ite_ok_cases h fun _ h => ?_
  exact ite_ok_error_cases h

theorem decodeKey_cases (h : decodeKey w = .ok i) :
    (fieldKK w = 0x9E ∧ i = .skipIfKeyDown (fieldX w)) ∨ (fieldKK w = 0xA1 ∧ i = .skipIfKeyUp (fieldX w)) :=
  ite_ok_cases h fun _ h => ite_ok_error_cases h

theorem decodeMisc_cases (h : decodeMisc w = .ok i) :
    (fieldKK w = 0x07 ∧ i = .loadDelay (fieldX w)) ∨ (fieldKK w = 0x0A ∧ i = .waitForKey (fieldX w)) ∨
    (fieldKK w = 0x15 ∧ i = .storeDelay (fieldX w)) ∨ (fieldKK w = 0x18 ∧ i = .storeSound (fieldX w)) ∨
    (fieldKK w = 0x1E ∧ i = .addIndex (fieldX w)) ∨ (fieldKK w = 0x29 ∧ i = .loadFontAddr (fieldX w)) ∨
    (fieldKK w = 0x33 ∧ i = .storeBcd (fieldX w)) ∨ (fieldKK w = 0x55 ∧ i = .storeRegs (fieldX w)) ∨
    (fieldKK w = 0x65 ∧ i = .loadRegs (fieldX w)) := by
  iterate 8 refine ite_ok_cases h fun _ h => ?_
  exact ite_ok_error_cases h

/-! ### What it rejects (R98) -/

/-- The sub-selectors of family `0x8`. -/
def regSubs : List (BitVec 4) := [0x0, 0x1, 0x2, 0x3, 0x4, 0x5, 0x6, 0x7, 0xE]

/-- The sub-selectors of family `0xE`. -/
def keySubs : List Byte := [0x9E, 0xA1]

/-- The sub-selectors of family `0xF`. -/
def miscSubs : List Byte := [0x07, 0x0A, 0x15, 0x18, 0x1E, 0x29, 0x33, 0x55, 0x65]

variable {e : Reject}

theorem decodeReg_eq_error_iff : decodeReg w = .error e ↔ fieldN w ∉ regSubs ∧ e = .unimplemented w := by
  simp only [decodeReg, regSubs, ite_ok_eq_error_iff, Except.error.injEq, List.mem_cons, List.not_mem_nil, or_false,
    not_or, and_assoc, @eq_comm _ e]

theorem decodeKey_eq_error_iff : decodeKey w = .error e ↔ fieldKK w ∉ keySubs ∧ e = .unimplemented w := by
  simp only [decodeKey, keySubs, ite_ok_eq_error_iff, Except.error.injEq, List.mem_cons, List.not_mem_nil, or_false,
    not_or, and_assoc, @eq_comm _ e]

theorem decodeMisc_eq_error_iff : decodeMisc w = .error e ↔ fieldKK w ∉ miscSubs ∧ e = .unimplemented w := by
  simp only [decodeMisc, miscSubs, ite_ok_eq_error_iff, Except.error.injEq, List.mem_cons, List.not_mem_nil, or_false,
    not_or, and_assoc, @eq_comm _ e]

theorem decodeLiteral_ne_error : decodeLiteral w ≠ .error e := fun h =>
  nomatch (ite_ok_eq_error_iff.1 (ite_ok_eq_error_iff.1 h).2).2

end secondLevel

/-! ### What the decoder rejects -/

section rejection

variable {w : Word} {e : Reject}

/-- The families whose every word decodes. -/
theorem exists_decode_eq_ok (h8 : familyOf w ≠ 0x8) (hE : familyOf w ≠ 0xE) (hF : familyOf w ≠ 0xF) :
    ∃ i, decode w = .ok i := by
  rcases family_cases (familyOf w) with h | h | h | h | h | h | h | h | h | h | h | h | h | h | h | h
  · cases hd : decodeLiteral w with
    | ok i => exact ⟨i, (decode_family_0 h).trans hd⟩
    | error e => exact absurd hd decodeLiteral_ne_error
  · exact ⟨_, decode_family_1 h⟩
  · exact ⟨_, decode_family_2 h⟩
  · exact ⟨_, decode_family_3 h⟩
  · exact ⟨_, decode_family_4 h⟩
  · exact ⟨_, decode_family_5 h⟩
  · exact ⟨_, decode_family_6 h⟩
  · exact ⟨_, decode_family_7 h⟩
  · exact absurd h h8
  · exact ⟨_, decode_family_9 h⟩
  · exact ⟨_, decode_family_A h⟩
  · exact ⟨_, decode_family_B h⟩
  · exact ⟨_, decode_family_C h⟩
  · exact ⟨_, decode_family_D h⟩
  · exact absurd h hE
  · exact absurd h hF

/-- The word has a sub-selector of no operation (R98). -/
def UnknownSub (w : Word) : Prop :=
  (familyOf w = 0x8 ∧ fieldN w ∉ regSubs) ∨ (familyOf w = 0xE ∧ fieldKK w ∉ keySubs) ∨
    (familyOf w = 0xF ∧ fieldKK w ∉ miscSubs)

/-- A word is rejected iff its sub-selector is that of no operation, and then as unimplemented. -/
theorem decode_eq_error_iff : decode w = .error e ↔ UnknownSub w ∧ e = .unimplemented w := by
  by_cases h8 : familyOf w = 0x8
  · simp [UnknownSub, decode_family_8 h8, decodeReg_eq_error_iff, h8]
  by_cases hE : familyOf w = 0xE
  · simp [UnknownSub, decode_family_E hE, decodeKey_eq_error_iff, hE]
  by_cases hF : familyOf w = 0xF
  · simp [UnknownSub, decode_family_F hF, decodeMisc_eq_error_iff, hF]
  · obtain ⟨i, hi⟩ := exists_decode_eq_ok h8 hE hF
    have hknown : ¬UnknownSub w := by
      rintro (⟨hf, -⟩ | ⟨hf, -⟩ | ⟨hf, -⟩)
      exacts [h8 hf, hE hf, hF hf]
    rw [hi]; exact ⟨nofun, fun h => absurd h.1 hknown⟩

end rejection

/-! ### The word a decoded instruction is encoded as -/

section encoding

variable {w : Word} {i : Instr} {f : BitVec 4}

theorem append_nnn_eq (hf : familyOf w = f) : f ++ fieldNNN w = w := by
  rw [← hf, ← eq_append_nnn]

theorem append_xkk_eq (hf : familyOf w = f) : f ++ fieldX w ++ fieldKK w = w := by
  rw [← hf, ← eq_append_xkk]

theorem append_xyn_eq (hf : familyOf w = f) : f ++ fieldX w ++ fieldY w ++ fieldN w = w := by
  rw [← hf, ← eq_append_xyn]

/-- The word with its low nibble set to 0 (R97 a). -/
theorem and_clearLowNibble (hf : familyOf w = f) : w &&& 0xFFF0 = f ++ fieldX w ++ fieldY w ++ 0#4 := by
  have hmask : (0xFFF0 : Word) = BitVec.allOnes 4 ++ BitVec.allOnes 4 ++ BitVec.allOnes 4 ++ 0#4 := rfl
  nth_rw 1 [← append_xyn_eq hf]
  rw [hmask, BitVec.and_append, BitVec.and_append, BitVec.and_append, BitVec.and_allOnes, BitVec.and_allOnes,
    BitVec.and_allOnes, BitVec.and_zero]

/-- The instruction is well-formed and the word is its encoding. -/
def Encodes (w : Word) (i : Instr) : Prop := i.wellFormed = true ∧ encode i = w

theorem encodes_of_decodeLiteral (hf : familyOf w = 0x0) (h : decodeLiteral w = .ok i) : Encodes w i := by
  have hw : 0x0#4 ++ fieldNNN w = w := append_nnn_eq hf
  rcases decodeLiteral_cases h with ⟨rfl, rfl⟩ | ⟨rfl, rfl⟩ | ⟨h1, h2, rfl⟩
  · exact ⟨rfl, rfl⟩
  · exact ⟨rfl, rfl⟩
  · have hclear : fieldNNN w ≠ 0x0E0 := fun hn => h1 (by rw [← hw, hn]; rfl)
    have hret : fieldNNN w ≠ 0x0EE := fun hn => h2 (by rw [← hw, hn]; rfl)
    exact ⟨Bool.and_eq_true_iff.2 ⟨bne_iff_ne.2 hclear, bne_iff_ne.2 hret⟩, hw⟩

theorem encodes_of_decodeReg (hf : familyOf w = 0x8) (h : decodeReg w = .ok i) : Encodes w i := by
  have hw : 0x8#4 ++ fieldX w ++ fieldY w ++ fieldN w = w := append_xyn_eq hf
  rcases decodeReg_cases h with ⟨hn, rfl⟩ | ⟨hn, rfl⟩ | ⟨hn, rfl⟩ | ⟨hn, rfl⟩ | ⟨hn, rfl⟩ | ⟨hn, rfl⟩ | ⟨hn, rfl⟩ |
    ⟨hn, rfl⟩ | ⟨hn, rfl⟩
  all_goals rw [hn] at hw; exact ⟨rfl, hw⟩

theorem encodes_of_decodeKey (hf : familyOf w = 0xE) (h : decodeKey w = .ok i) : Encodes w i := by
  have hw : 0xE#4 ++ fieldX w ++ fieldKK w = w := append_xkk_eq hf
  rcases decodeKey_cases h with ⟨hk, rfl⟩ | ⟨hk, rfl⟩
  all_goals rw [hk] at hw; exact ⟨rfl, hw⟩

theorem encodes_of_decodeMisc (hf : familyOf w = 0xF) (h : decodeMisc w = .ok i) : Encodes w i := by
  have hw : 0xF#4 ++ fieldX w ++ fieldKK w = w := append_xkk_eq hf
  rcases decodeMisc_cases h with ⟨hk, rfl⟩ | ⟨hk, rfl⟩ | ⟨hk, rfl⟩ | ⟨hk, rfl⟩ | ⟨hk, rfl⟩ | ⟨hk, rfl⟩ | ⟨hk, rfl⟩ |
    ⟨hk, rfl⟩ | ⟨hk, rfl⟩
  all_goals rw [hk] at hw; exact ⟨rfl, hw⟩

/-- Outside families 5 and 9 the decoder examines every bit, and a decoded word is its instruction's. -/
theorem encodes_of_decode (h5 : familyOf w ≠ 0x5) (h9 : familyOf w ≠ 0x9) (h : decode w = .ok i) : Encodes w i := by
  rcases family_cases (familyOf w) with hf | hf | hf | hf | hf | hf | hf | hf | hf | hf | hf | hf | hf | hf | hf | hf
  · rw [decode_family_0 hf] at h; exact encodes_of_decodeLiteral hf h
  · rw [decode_family_1 hf] at h; cases h; exact ⟨rfl, append_nnn_eq hf⟩
  · rw [decode_family_2 hf] at h; cases h; exact ⟨rfl, append_nnn_eq hf⟩
  · rw [decode_family_3 hf] at h; cases h; exact ⟨rfl, append_xkk_eq hf⟩
  · rw [decode_family_4 hf] at h; cases h; exact ⟨rfl, append_xkk_eq hf⟩
  · exact absurd hf h5
  · rw [decode_family_6 hf] at h; cases h; exact ⟨rfl, append_xkk_eq hf⟩
  · rw [decode_family_7 hf] at h; cases h; exact ⟨rfl, append_xkk_eq hf⟩
  · rw [decode_family_8 hf] at h; exact encodes_of_decodeReg hf h
  · exact absurd hf h9
  · rw [decode_family_A hf] at h; cases h; exact ⟨rfl, append_nnn_eq hf⟩
  · rw [decode_family_B hf] at h; cases h; exact ⟨rfl, append_nnn_eq hf⟩
  · rw [decode_family_C hf] at h; cases h; exact ⟨rfl, append_xkk_eq hf⟩
  · rw [decode_family_D hf] at h; cases h; exact ⟨rfl, append_xyn_eq hf⟩
  · rw [decode_family_E hf] at h; exact encodes_of_decodeKey hf h
  · rw [decode_family_F hf] at h; exact encodes_of_decodeMisc hf h

/-- An instruction whose word the decoder examines whole (R97) is decoded from that word only. -/
theorem encode_eq_of_decode (h : decode w = .ok i) (h5 : ∀ x y, i ≠ .skipEqReg x y)
    (h9 : ∀ x y, i ≠ .skipNeqReg x y) : encode i = w := by
  have hf5 : familyOf w ≠ 0x5 := fun hf => h5 _ _ (Except.ok.inj (h.symm.trans (decode_family_5 hf)))
  have hf9 : familyOf w ≠ 0x9 := fun hf => h9 _ _ (Except.ok.inj (h.symm.trans (decode_family_9 hf)))
  exact (encodes_of_decode hf5 hf9 h).2

theorem decode_eq_clearScreen_iff : decode w = .ok .clearScreen ↔ w = 0x00E0 := by
  constructor
  · intro h; exact (encode_eq_of_decode h nofun nofun).symm
  · rintro rfl; rfl

theorem decode_eq_ret_iff : decode w = .ok .ret ↔ w = 0x00EE := by
  constructor
  · intro h; exact (encode_eq_of_decode h nofun nofun).symm
  · rintro rfl; rfl

/-- The machine routines are the words of family `0x0` other than clear-screen and return (R99). -/
theorem exists_decode_eq_machineRoutine_iff :
    (∃ nnn, decode w = .ok (.machineRoutine nnn)) ↔ familyOf w = 0x0 ∧ w ≠ 0x00E0 ∧ w ≠ 0x00EE := by
  constructor
  · rintro ⟨nnn, h⟩
    have hw : 0x0#4 ++ nnn = w := encode_eq_of_decode h nofun nofun
    refine ⟨by rw [← hw, familyOf_nnn]; rfl, fun h1 => ?_, fun h2 => ?_⟩
    · rw [decode_eq_clearScreen_iff.2 h1] at h; cases h
    · rw [decode_eq_ret_iff.2 h2] at h; cases h
  · rintro ⟨hf, h1, h2⟩
    exact ⟨fieldNNN w, by rw [decode_family_0 hf, decodeLiteral, if_neg h1, if_neg h2]⟩

end encoding

/-! ### Fields as numbers -/

theorem div_4096_eq_iff (w : Word) (f : BitVec 4) : w.toNat / 4096 = f.toNat ↔ familyOf w = f := by
  have hf : w.toNat / 4096 = (familyOf w).toNat := by rw [toNat_familyOf]; have := w.isLt; omega
  rw [hf, BitVec.toNat_inj]

theorem mod_16_mem_iff (w : Word) (ns : List (BitVec 4)) : w.toNat % 16 ∈ ns.map BitVec.toNat ↔ fieldN w ∈ ns := by
  rw [← toNat_fieldN, List.mem_map_of_injective fun _ _ => BitVec.eq_of_toNat_eq]

theorem mod_256_mem_iff (w : Word) (ks : List Byte) : w.toNat % 256 ∈ ks.map BitVec.toNat ↔ fieldKK w ∈ ks := by
  rw [← toNat_fieldKK, List.mem_map_of_injective fun _ _ => BitVec.eq_of_toNat_eq]

end Sys2Proof
end

section
/-! SUPPORT. The shifts and the machine routine at this hardware's parameters (R6). -/

namespace Sys2Proof.Machine

/-- With `SHIFT_SOURCE = Vx` the shifted byte is `Vx` (R168). -/
theorem exec_shiftRight (x y : RegNum) (s : State) : exec (.shiftRight x y) s =
    .next (s.setRegFlag x (s.reg x >>> 1) (shiftedOutRight (s.reg x))).advance := rfl

/-- With `SHIFT_SOURCE = Vx` the shifted byte is `Vx` (R170). -/
theorem exec_shiftLeft (x y : RegNum) (s : State) : exec (.shiftLeft x y) s =
    .next (s.setRegFlag x (s.reg x <<< 1) (shiftedOutLeft (s.reg x))).advance := rfl

/-- With `UNIMPL_POLICY = hold` the report is all that is written (R126). -/
theorem exec_machineRoutine (nnn : Addr) (s : State) : exec (.machineRoutine nnn) s =
    .next (s.setResult (.unimplemented (0x0#4 ++ nnn) s.pc)) := rfl

end Sys2Proof.Machine
end

section
/-! PROOF. The encoding's family: the opcode map, the rejected words and the bits the decoder examines (R95 to R99). -/

namespace Sys2Proof.Machine

/-- Settles O3: family by family the fields put together again are the word, but for the nibble of families 5 and 9. -/
theorem decodedWordIsItsEncoding : Obligations.DecodedWordIsItsEncoding := by
  intro w i h
  by_cases h5 : familyOf w = 0x5
  · rw [decode_family_5 h5] at h; cases h
    exact ⟨rfl, (and_clearLowNibble h5).symm.trans (if_pos (.inl h5)).symm⟩
  by_cases h9 : familyOf w = 0x9
  · rw [decode_family_9 h9] at h; cases h
    exact ⟨rfl, (and_clearLowNibble h9).symm.trans (if_pos (.inr h9)).symm⟩
  obtain ⟨hwf, henc⟩ := encodes_of_decode h5 h9 h
  exact ⟨hwf, henc.trans (if_neg (not_or.2 ⟨h5, h9⟩)).symm⟩

/-- Settles O4: a word selects the row of what it decodes to, and a rejection names the word. -/
theorem decoderFollowsOpcodeMap : Obligations.DecoderFollowsOpcodeMap := by
  intro w
  refine ⟨fun i h => selectRow_of_decode h, fun e h => ⟨(decode_eq_error_iff.1 h).2, ?_⟩⟩
  rw [selectRow_eq_row_decode, h]
  rfl

/-- Settles O5: row 35 has the words left of family 0, and a rejected word has a sub-selector of no operation. -/
theorem unimplementedWordsAreThoseOfTheTable : Obligations.UnimplementedWordsAreThoseOfTheTable := by
  intro w
  have hcompl : ∀ n : BitVec 4, n ∉ regSubs ↔ n ∈ ([0x8, 0x9, 0xA, 0xB, 0xC, 0xD, 0xF] : List (BitVec 4)) := by decide
  have h0 := (div_4096_eq_iff w 0x0).symm
  have hReg := and_congr (div_4096_eq_iff w 0x8).symm ((hcompl _).trans (mod_16_mem_iff w _).symm)
  have hKey := and_congr (div_4096_eq_iff w 0xE).symm (not_congr (mod_256_mem_iff w keySubs).symm)
  have hMisc := and_congr (div_4096_eq_iff w 0xF).symm (not_congr (mod_256_mem_iff w miscSubs).symm)
  have hrej : decode w = .error (.unimplemented w) ↔ UnknownSub w := by rw [decode_eq_error_iff, and_iff_left rfl]
  rw [exists_decode_eq_machineRoutine_iff, hrej]
  exact or_congr (and_congr_left' h0) (or_congr hReg (or_congr hKey hMisc))

/-- Settles O6: each part is the dispatch read at words of one format, forwards or backwards. -/
theorem bitsExaminedByTheDecoder : Obligations.BitsExaminedByTheDecoder := by
  refine ⟨?lowNibble, ?literals, ?shifts, ?keys, ?misc⟩
  case lowNibble =>
    intro x y n
    have h5 := decode_family_5 (familyOf_xyn 0x5#4 x y n)
    have h9 := decode_family_9 (familyOf_xyn 0x9#4 x y n)
    rw [fieldX_xyn, fieldY_xyn] at h5 h9
    exact ⟨h5, h9⟩
  case literals => exact fun w => ⟨decode_eq_clearScreen_iff, decode_eq_ret_iff⟩
  case shifts =>
    intro x y z s
    refine ⟨Laws.RoundTrip.shiftRight x y rfl, Laws.RoundTrip.shiftLeft x y rfl, ?_, ?_⟩
    · rw [exec_shiftRight, exec_shiftRight]
    · rw [exec_shiftLeft, exec_shiftLeft]
  case keys =>
    intro x k i
    constructor
    · intro h
      have hcases := decodeKey_cases ((decode_family_E (familyOf_xkk 0xE#4 x k)).symm.trans h)
      rwa [fieldKK_xkk, fieldX_xkk] at hcases
    · rintro (⟨rfl, rfl⟩ | ⟨rfl, rfl⟩)
      · exact Laws.RoundTrip.skipIfKeyDown x rfl
      · exact Laws.RoundTrip.skipIfKeyUp x rfl
  case misc =>
    intro x k i
    constructor
    · intro h
      have hcases := decodeMisc_cases ((decode_family_F (familyOf_xkk 0xF#4 x k)).symm.trans h)
      rwa [fieldKK_xkk, fieldX_xkk] at hcases
    · rintro (⟨rfl, rfl⟩ | ⟨rfl, rfl⟩ | ⟨rfl, rfl⟩ | ⟨rfl, rfl⟩ | ⟨rfl, rfl⟩ | ⟨rfl, rfl⟩ | ⟨rfl, rfl⟩ | ⟨rfl, rfl⟩ |
        ⟨rfl, rfl⟩)
      · exact Laws.RoundTrip.loadDelay x rfl
      · exact Laws.RoundTrip.waitForKey x rfl
      · exact Laws.RoundTrip.storeDelay x rfl
      · exact Laws.RoundTrip.storeSound x rfl
      · exact Laws.RoundTrip.addIndex x rfl
      · exact Laws.RoundTrip.loadFontAddr x rfl
      · exact Laws.RoundTrip.storeBcd x rfl
      · exact Laws.RoundTrip.storeRegs x rfl
      · exact Laws.RoundTrip.loadRegs x rfl

/-- Settles O1: sixteen closed words, each evaluated. -/
theorem specWordsDecode : Obligations.SpecWordsDecode := by
  unfold Obligations.SpecWordsDecode
  decide

/-- Settles O33: with the policy `hold` the machine routine writes the report alone, which is no part of the tuple. -/
theorem machineRoutineHasNoOperation : Obligations.MachineRoutineHasNoOperation := by
  intro nnn s
  exact ⟨_, exec_machineRoutine nnn s, sameCore_setResult s _, rfl, rfl, rfl, rfl, rfl, rfl⟩

end Sys2Proof.Machine
end

section
/-! SUPPORT. How an instruction ends (R128): with a fatal fault, with `Ok`, waiting, or with the unimplemented report;
and which fields of the state it does not read (R129). -/

namespace Sys2Proof.Machine

/-! ### The end of an instruction -/

/-- The four ways an instruction ends. Only wait-for-key waits, and only the machine routine reports; both then write
the result alone. -/
inductive Ending (s : State) : Instr → State → Prop
  | fatal {i : Instr} (c : FatalCode) (w : Word) (hc : faultCondition i s) : Ending s i (s.raise c w)
  | ok {i : Instr} {t : State} (hres : t.result = some .ok) : Ending s i t
  | waiting (x : RegNum) (hkeys : s.keys = 0) : Ending s (.waitForKey x) s.wait
  | unimplemented (nnn : Addr) : Ending s (.machineRoutine nnn) (s.setResult (.unimplemented (0x0#4 ++ nnn) s.pc))

/-- Every instruction ends, in one of the four ways (R124, R128). -/
theorem exec_ends (i : Instr) (s : State) : ∃ t, exec i s = .next t ∧ Ending s i t := by
  by_cases hc : faultCondition i s
  · obtain ⟨c, -, he⟩ := exec_of_faultCondition hc
    exact ⟨_, he, .fatal c _ hc⟩
  cases i with
  | ret => exact ⟨_, exec_ret_of_nonempty s (Nat.pos_of_ne_zero hc), .ok rfl⟩
  | call nnn => exact ⟨_, exec_call_of_room s nnn (by simp only [faultCondition] at hc; omega), .ok rfl⟩
  | draw x y n => exact ⟨_, exec_draw_of_in s x y n hc, .ok rfl⟩
  | skipIfKeyDown x => exact ⟨_, exec_skipIfKeyDown_of_in s x (Nat.not_lt.1 hc), .ok rfl⟩
  | skipIfKeyUp x => exact ⟨_, exec_skipIfKeyUp_of_in s x (Nat.not_lt.1 hc), .ok rfl⟩
  | storeBcd x => exact ⟨_, exec_storeBcd_of_in s x (by simp only [faultCondition] at hc; omega), .ok rfl⟩
  | storeRegs x => exact ⟨_, exec_storeRegs_of_in s x (Nat.not_lt.1 hc), .ok rfl⟩
  | loadRegs x => exact ⟨_, exec_loadRegs_of_in s x (Nat.not_lt.1 hc), .ok rfl⟩
  | waitForKey x =>
    cases hk : lowestKey s with
    | none =>
      have hkeys := (lowestKey_eq_none_iff s).1 hk
      exact ⟨_, exec_waitForKey_of_none s x hkeys, .waiting x hkeys⟩
    | some k => exact ⟨_, exec_waitForKey_of_some s x k hk, .ok rfl⟩
  | machineRoutine nnn => exact ⟨_, exec_machineRoutine nnn s, .unimplemented nnn⟩
  | _ => exact ⟨_, rfl, .ok rfl⟩

/-- What an instruction answered is one of the four ends. -/
theorem ending_of_exec {i : Instr} {s t : State} (h : exec i s = .next t) : Ending s i t := by
  obtain ⟨u, he, hu⟩ := exec_ends i s
  obtain rfl : u = t := by simpa [he] using h
  exact hu

/-! ### The word fetched (R60) -/

/-- Two bytes that decode to an instruction are its word's (R60). -/
theorem decode_of_decodeBytes {hi lo : Byte} {i : Instr} (h : decodeBytes [hi, lo] = .ok (i, [])) :
    decode (wordOfBytes hi lo) = .ok i := by
  rw [decodeBytes] at h
  cases hd : decode (wordOfBytes hi lo) with
  | ok j => simpa [hd] using h
  | error e => simp [hd] at h

/-! ### The word with no operation (R126) -/

/-- The report of a CYCLE is no part of the spec's tuple, and neither are its inputs. -/
theorem sameCore_present_setResult (s : State) (keys : Keys) (rnd : Byte) (r : CycleResult) :
    SameCore s ((s.present keys rnd).setResult r) :=
  sameCore_present s keys rnd

/-- A word of row 35 or of no row. -/
def NoOperation (w : Word) : Prop :=
  (∃ nnn, decode w = .ok (.machineRoutine nnn)) ∨ decode w = .error (.unimplemented w)

/-- The decoder rejects no other words (R98). -/
theorem noOperation_of_decode_eq_error {w : Word} {e : Reject} (h : decode w = .error e) : NoOperation w :=
  .inr (by rw [h, (decode_eq_error_iff.1 h).2])

/-- A CYCLE at a word with no operation writes its report alone, which names the fetched word. -/
theorem cycle_of_noOperation (keys : Keys) (rnd : Byte) {s : State} {w : Word} (hfault : s.fault = none)
    (hfetch : s.fetch = some w) (hw : NoOperation w) :
    cycle keys rnd s = .next ((s.present keys rnd).setResult (.unimplemented w s.pc)) := by
  rcases hw with ⟨nnn, hd⟩ | hd
  · have henc : 0x0#4 ++ nnn = w := encode_eq_of_decode hd nofun nofun
    rw [cycle_of_instr keys rnd s hfault hfetch hd, exec_machineRoutine, henc, State.present_pc]
  · exact cycle_of_reject keys rnd s hfault hfetch hd

/-! ### The fields nothing reads (R129) -/

/-- The state with other values in the fields that no instruction and no CYCLE reads: the latest result and the driver's
schedule. -/
def State.withUnread (s : State) (res : Option CycleResult) (evs : List Event) (drawn : Nat) : State :=
  { s with result := res, pending := evs, freeIndex := drawn }

section unread

variable (res : Option CycleResult) (evs : List Event) (drawn : Nat)

theorem State.setRegsFrom_withUnread (s : State) (k : Nat) (bs : List Byte) :
    (s.withUnread res evs drawn).setRegsFrom k bs = (s.setRegsFrom k bs).withUnread res evs drawn := by
  induction bs generalizing s k with
  | nil => rfl
  | cons b bs ih => exact ih (s.setReg (BitVec.ofNat 4 k) b) (k + 1)

/-- An instruction neither reads the unread fields nor, but for its result, writes them. -/
theorem exec_withUnread (i : Instr) (s : State) : ∃ t, exec i s = .next t ∧
    exec i (s.withUnread res evs drawn) = .next (t.withUnread t.result evs drawn) := by
  by_cases hc : faultCondition i s
  · obtain ⟨c, hm, he⟩ := exec_of_faultCondition hc
    have hc' : faultCondition i (s.withUnread res evs drawn) := (faultCondition_congr rfl rfl rfl i).2 hc
    obtain ⟨c', hm', he'⟩ := exec_of_faultCondition hc'
    obtain rfl : c' = c := Option.some.inj (hm'.symm.trans hm)
    exact ⟨_, he, he'⟩
  cases i with
  | ret =>
    have hsp : 0 < s.sp.val := Nat.pos_of_ne_zero hc
    exact ⟨_, exec_ret_of_nonempty s hsp, exec_ret_of_nonempty (s.withUnread res evs drawn) hsp⟩
  | call nnn =>
    have hsp : s.sp.val < 16 := by simp only [faultCondition] at hc; omega
    exact ⟨_, exec_call_of_room s nnn hsp, exec_call_of_room (s.withUnread res evs drawn) nnn hsp⟩
  | draw x y n => exact ⟨_, exec_draw_of_in s x y n hc, exec_draw_of_in (s.withUnread res evs drawn) x y n hc⟩
  | skipIfKeyDown x =>
    have hx := Nat.not_lt.1 hc
    exact ⟨_, exec_skipIfKeyDown_of_in s x hx, exec_skipIfKeyDown_of_in (s.withUnread res evs drawn) x hx⟩
  | skipIfKeyUp x =>
    have hx := Nat.not_lt.1 hc
    exact ⟨_, exec_skipIfKeyUp_of_in s x hx, exec_skipIfKeyUp_of_in (s.withUnread res evs drawn) x hx⟩
  | storeBcd x =>
    have hidx : s.idx.toNat ≤ 0xFFD := by simp only [faultCondition] at hc; omega
    exact ⟨_, exec_storeBcd_of_in s x hidx, exec_storeBcd_of_in (s.withUnread res evs drawn) x hidx⟩
  | storeRegs x =>
    have hidx := Nat.not_lt.1 hc
    exact ⟨_, exec_storeRegs_of_in s x hidx, exec_storeRegs_of_in (s.withUnread res evs drawn) x hidx⟩
  | loadRegs x =>
    have hidx := Nat.not_lt.1 hc
    refine ⟨_, exec_loadRegs_of_in s x hidx, (exec_loadRegs_of_in (s.withUnread res evs drawn) x hidx).trans ?_⟩
    rw [State.setRegsFrom_withUnread]
    rfl
  | waitForKey x =>
    cases hk : lowestKey s with
    | none =>
      have hkeys := (lowestKey_eq_none_iff s).1 hk
      exact ⟨_, exec_waitForKey_of_none s x hkeys, exec_waitForKey_of_none (s.withUnread res evs drawn) x hkeys⟩
    | some k => exact ⟨_, exec_waitForKey_of_some s x k hk, exec_waitForKey_of_some (s.withUnread res evs drawn) x k hk⟩
  | _ => exact ⟨_, rfl, rfl⟩

/-- Nor does a CYCLE, in each of its four ways (R120, R228). -/
theorem cycle_withUnread (keys : Keys) (rnd : Byte) (s : State) : ∃ t, cycle keys rnd s = .next t ∧
    cycle keys rnd (s.withUnread res evs drawn) = .next (t.withUnread t.result evs drawn) := by
  cases hfault : s.fault with
  | some c => exact ⟨_, cycle_of_halted keys rnd s hfault, cycle_of_halted keys rnd _ hfault⟩
  | none =>
    cases hfetch : s.fetch with
    | none => exact ⟨_, cycle_of_no_fetch keys rnd s hfault hfetch, cycle_of_no_fetch keys rnd _ hfault hfetch⟩
    | some w =>
      cases hd : decode w with
      | error e => exact ⟨_, cycle_of_reject keys rnd s hfault hfetch hd, cycle_of_reject keys rnd _ hfault hfetch hd⟩
      | ok i =>
        obtain ⟨t, he, he'⟩ := exec_withUnread res evs drawn i (s.present keys rnd)
        exact ⟨t, (cycle_of_instr keys rnd s hfault hfetch hd).trans he,
          (cycle_of_instr keys rnd (s.withUnread res evs drawn) hfault hfetch hd).trans he'⟩

end unread

/-- Of two states with the same tuple, one is the other with its own model fields in place, once the CYCLE's inputs are
there. -/
theorem SameCore.present_eq {s s' : State} (h : SameCore s s') (keys : Keys) (rnd : Byte) :
    s'.present keys rnd = (s.present keys rnd).withUnread s'.result s'.pending s'.freeIndex := by
  obtain ⟨hv, hidx, hpc, hsp, hstack, hdt, hst, hmem, hfb, hfault, hword, haddr⟩ := h
  simp only [State.present, State.withUnread, ← hv, ← hidx, ← hpc, ← hsp, ← hstack, ← hdt, ← hst, ← hmem, ← hfb,
    ← hfault, ← hword, ← haddr]

/-- A CYCLE overwrites the inputs it finds. -/
theorem cycle_present (keys : Keys) (rnd : Byte) (s : State) : cycle keys rnd (s.present keys rnd) = cycle keys rnd s :=
  rfl

theorem sameCore_withUnread (s : State) (res : Option CycleResult) (evs : List Event) (drawn : Nat) :
    SameCore s (s.withUnread res evs drawn) :=
  ⟨rfl, rfl, rfl, rfl, rfl, rfl, rfl, rfl, rfl, rfl, rfl, rfl⟩

end Sys2Proof.Machine
end

section
/-! PROOF. The CYCLE's family: its five results (R128), the held conditions (R121, R126), what it depends on (R129) and
where it leaves `pc` (R125). -/

namespace Sys2Proof.Machine

/-! ### Execution -/

/-- Settles O15: fault entry and completion are both next states. -/
theorem everyInstructionCompletes : Obligations.EveryInstructionCompletes :=
  fun i s => (exec_ends i s).imp fun _ h => h.1

/-- Settles O8: the event taken is a CYCLE that fetches the word of the two bytes. -/
theorem stepRunsDecodedInstruction : Obligations.StepRunsDecodedInstruction := by
  intro s keys rnd rest i hpending hfault hpc hbytes
  have hfetch := (s.fetch_eq_some_iff _).2 ⟨hpc, rfl⟩
  have hd := decode_of_decodeBytes hbytes
  rw [step_of_pending_cons hpending, runEvent_cycle]
  exact cycle_of_instr keys rnd { s with pending := rest } hfault hfetch hd

/-- Settles O16: an instruction that ends with no fatal result has completed, with `pc` as the table says; fault entry
and a rejected word leave `pc` alone. -/
theorem programCounterDiscipline : Obligations.ProgramCounterDiscipline := by
  refine ⟨?instr, ?rejected, ?noWrap⟩
  case instr =>
    intro i s t h
    rcases exec_cases h with ⟨-, c, -, rfl⟩ | ⟨hnot, hpc, -⟩
    · exact .inr ⟨⟨c, _, rfl⟩, rfl⟩
    · refine .inl ⟨?_, hpc⟩
      cases ending_of_exec h with
      | ok hres => exact .inl hres
      | waiting x hkeys => exact .inr (.inl rfl)
      | unimplemented nnn => exact .inr (.inr ⟨_, _, rfl⟩)
      | fatal c w hc => exact absurd hc hnot
  case rejected =>
    intro s t keys rnd w hfault hfetch hd h
    rw [cycle_of_reject keys rnd s hfault hfetch hd] at h
    cases h
    rfl
  case noWrap =>
    intro s hpc
    constructor <;> bv_omega

/-! ### The results of a CYCLE -/

/-- Settles O13: the halted check, the fetch, the decoding and the end of the instruction tell the results apart. -/
theorem cycleEndsWithOneOfFiveResults : Obligations.CycleEndsWithOneOfFiveResults := by
  intro s keys rnd
  cases hfault : s.fault with
  | some c =>
    exact ⟨_, .halted c, cycle_of_halted keys rnd s hfault, rfl, rfl, sameCore_present_setResult s keys rnd _⟩
  | none =>
    cases hfetch : s.fetch with
    | none =>
      exact ⟨_, .fatal _ _ _, cycle_of_no_fetch keys rnd s hfault hfetch, rfl, rfl, rfl, onlyLatchSet_raise _ _ _⟩
    | some w =>
      by_cases hw : NoOperation w
      · exact ⟨_, .unimplemented _ _, cycle_of_noOperation keys rnd hfault hfetch hw, rfl, ⟨hfault, w, hfetch, hw⟩, rfl,
          rfl, sameCore_present_setResult s keys rnd _⟩
      cases hd : decode w with
      | error e => exact absurd (noOperation_of_decode_eq_error hd) hw
      | ok i =>
        have hcycle := cycle_of_instr keys rnd s hfault hfetch hd
        obtain ⟨t, he, hend⟩ := exec_ends i (s.present keys rnd)
        cases hend with
        | fatal c v hc => exact ⟨_, .fatal _ _ _, hcycle.trans he, rfl, rfl, rfl, onlyLatchSet_raise _ _ _⟩
        | ok hres => exact ⟨t, .ok, hcycle.trans he, hres, i, ⟨hfault, w, hfetch, hd⟩, he⟩
        | waiting x hkeys =>
          exact ⟨_, .waiting, hcycle.trans he, rfl, ⟨hkeys, x, hfault, w, hfetch, hd⟩,
            sameCore_present_setResult s keys rnd _⟩
        | unimplemented nnn => exact absurd (.inl ⟨nnn, hd⟩) hw

/-- Settles O10: the halted check comes first in a CYCLE, `TICK` and the load leave the latch, `RESET` clears it. -/
theorem haltedCoreStaysHalted : Obligations.HaltedCoreStaysHalted := by
  intro s code hfault
  have hcycle keys rnd := cycle_of_halted keys rnd s hfault
  refine ⟨fun keys rnd => ⟨_, hcycle keys rnd, sameCore_present_setResult s keys rnd _, rfl⟩, ?_,
    s.resetEvent, rfl, rfl⟩
  intro e t h hne
  cases e with
  | reset => exact absurd rfl hne
  | load image => obtain ⟨-, rfl⟩ := loadImage_eq_next h; exact hfault
  | cycle keys rnd => rw [runEvent_cycle, hcycle] at h; cases h; exact hfault
  | tick => cases h; exact hfault

/-- Settles O12: the report is all a CYCLE writes at a word with no operation, so the next fetches the word again. -/
theorem unimplementedWordIsReportedAndHeld : Obligations.UnimplementedWordIsReportedAndHeld := by
  refine ⟨?held, fun _ _ => ⟨rfl, rfl⟩⟩
  intro s w hfault hfetch hw
  refine ⟨fun keys rnd => ?_, hfault, hfetch, rfl⟩
  refine ⟨_, cycle_of_noOperation keys rnd hfault hfetch hw, sameCore_present_setResult s keys rnd _, rfl, ?_⟩
  intro keys' rnd'
  exact ⟨_, cycle_of_noOperation keys' rnd' hfault hfetch hw, sameCore_present_setResult s keys' rnd' _, rfl⟩

/-- Settles O14: with the inputs presented the two states differ in fields a CYCLE does not read. -/
theorem cycleDependsOnCoreAndInputsOnly : Obligations.CycleDependsOnCoreAndInputsOnly := by
  intro s s' t keys rnd hcore h
  obtain ⟨u, hu, hu'⟩ := cycle_withUnread s'.result s'.pending s'.freeIndex keys rnd (s.present keys rnd)
  rw [cycle_present, h] at hu
  cases hu
  rw [← hcore.present_eq, cycle_present] at hu'
  exact ⟨_, hu', sameCore_withUnread _ _ _ _, rfl⟩

end Sys2Proof.Machine
end

section
/-! SUPPORT. Control transfer (R140 to R147): where each instruction leaves `pc`, what it leaves alone, and the call
stack as a call and a return leave it. -/

namespace Sys2Proof.Machine

/-! ### Targets (R93, R147) -/

theorem toNat_absAddr (nnn : Addr) : (absAddr nnn).toNat = nnn.toNat :=
  BitVec.toNat_setWidth_of_le (by omega)

/-- The sum is at most `0x10FE`, so it does not wrap in 16 bits (R147). -/
theorem toNat_offsetTarget (s : State) (nnn : Addr) :
    (offsetTarget s nnn).toNat = nnn.toNat + (s.reg V0).toNat := by
  have hbase := toNat_absAddr nnn
  have := nnn.isLt
  have := (s.reg V0).isLt
  unfold offsetTarget
  bv_omega

/-! ### Jumps -/

theorem exec_jump (nnn : Addr) (s : State) : exec (.jump nnn) s = .next (s.goTo (absAddr nnn)) := rfl

theorem exec_jumpOffset (nnn : Addr) (s : State) : exec (.jumpOffset nnn) s = .next (s.goTo (offsetTarget s nnn)) := rfl

theorem keepsAllButRegs_goTo (s : State) (w : Word) : KeepsAllButRegs [] s (s.goTo w) := keepsAllButRegs_setPc s w .ok

/-- A jump to its own address leaves the tuple alone (R141). -/
theorem sameCore_goTo_self {s : State} {w : Word} (h : s.pc = w) : SameCore s (s.goTo w) := by
  subst h
  exact sameCore_setResult s .ok

/-- After a jump to the last byte of memory or beyond, the next CYCLE cannot fetch (R68). -/
theorem cycle_goTo_beyond_memory {s : State} {w : Word} (hfault : s.fault = none) (hw : 0xFFF ≤ w.toNat)
    (keys : Keys) (rnd : Byte) : ∃ u, cycle keys rnd (s.goTo w) = .next u ∧
      OnlyLatchSet .fetchOutOfRange 0x0000 ((s.goTo w).present keys rnd) u := by
  obtain ⟨u, hcycle, hlatch, -⟩ := fetchBeyondMemoryFaults (s.goTo w) keys rnd hfault hw
  exact ⟨u, hcycle, hlatch⟩

/-! ### Skips -/

theorem exec_skipEqImm (x : RegNum) (kk : Byte) (s : State) :
    exec (.skipEqImm x kk) s = .next (s.skipIf (s.reg x == kk)) := rfl

theorem exec_skipNeqImm (x : RegNum) (kk : Byte) (s : State) :
    exec (.skipNeqImm x kk) s = .next (s.skipIf (s.reg x != kk)) := rfl

theorem exec_skipEqReg (x y : RegNum) (s : State) :
    exec (.skipEqReg x y) s = .next (s.skipIf (s.reg x == s.reg y)) := rfl

theorem exec_skipNeqReg (x y : RegNum) (s : State) :
    exec (.skipNeqReg x y) s = .next (s.skipIf (s.reg x != s.reg y)) := rfl

theorem State.skipIf_beq_pc (s : State) (a b : Byte) :
    (s.skipIf (a == b)).pc = if a = b then s.pc + 4 else s.pc + 2 := by
  simp only [State.skipIf_pc, beq_iff_eq]

theorem State.skipIf_bne_pc (s : State) (a b : Byte) :
    (s.skipIf (a != b)).pc = if a = b then s.pc + 2 else s.pc + 4 := by
  simp only [State.skipIf_pc, bne_iff_ne, ite_not]

theorem keepsAllButRegs_skipIf (s : State) (c : Bool) : KeepsAllButRegs [] s (s.skipIf c) :=
  keepsAllButRegs_goTo s _

/-! ### Call and return -/

/-- The frame of an instruction that writes no more than the call stack, `pc` and the result. -/
def KeepsAllButStack (s t : State) : Prop :=
  KeepsRegs [] s t ∧ KeepsIdx s t ∧ KeepsTimers s t ∧ KeepsMem s t ∧ KeepsDisplay s t ∧ KeepsLatch s t ∧
    KeepsDriver s t

theorem keepsAllButStack_goTo (s : State) (sp : Fin 17) (slots : Vector Word 16) (w : Word) :
    KeepsAllButStack s (State.goTo { s with sp := sp, stack := slots } w) :=
  ⟨fun _ _ => rfl, rfl, ⟨rfl, rfl⟩, fun _ => rfl, fun _ => rfl, ⟨rfl, rfl, rfl⟩, rfl, rfl, rfl, rfl, rfl⟩

/-- The top slot holds the address of a call, at most `0xFFE`, so a return goes no further than `0x1000` (R140). -/
theorem CoreInv.toNat_returnTarget_le {s : State} (hs : CoreInv s) (h : 0 < s.sp.val) :
    (s.stack[s.sp.val - 1]'(by have := s.sp.isLt; omega) + 2).toNat ≤ 0x1000 := by
  have hslot := hs.liveSlots ⟨s.sp.val - 1, by have := s.sp.isLt; omega⟩ (Nat.sub_one_lt_of_lt h)
  rw [Fin.getElem_fin] at hslot
  bv_omega

/-- A return to the address in slot `k`, the top one in use. -/
theorem exec_ret_of_top {s : State} {k : Nat} {w : Word} (hk : k < 16) (hsp : s.sp.val = k + 1)
    (hslot : s.stack[k] = w) :
    ∃ u, exec .ret s = .next u ∧ u.pc = w + 2 ∧ u.sp.val = k ∧ u.result = some .ok := by
  have htop : s.sp.val - 1 = k := by omega
  refine ⟨_, exec_ret_of_nonempty s (by omega), ?_, htop, rfl⟩
  simp only [State.goTo_pc, htop, hslot]

end Sys2Proof.Machine
end

section
/-! PROOF. The control transfer's family: the jumps (R141, R147), the skips (R143 to R146), call and return (R140,
R142). -/

namespace Sys2Proof.Machine

/-! ### Call and return -/

/-- Settles O29: the slot at `SP` takes `pc0`, and a return that finds it on top goes there, advanced by 2. -/
theorem callPushesItsOwnAddress : Obligations.CallPushesItsOwnAddress := by
  intro nnn
  refine ⟨Laws.RoundTrip.call nnn rfl, fun s => ⟨?full, ?room⟩⟩
  case full =>
    intro hsp
    exact ⟨_, exec_call_of_full s nnn hsp, onlyLatchSet_raise s _ _⟩
  case room =>
    intro hsp
    have hpushed : (s.stack.set s.sp.val s.pc hsp)[s.sp.val] = s.pc := Vector.getElem_set_self hsp
    have hothers : ∀ k : Fin 16, k.val ≠ s.sp.val → (s.stack.set s.sp.val s.pc hsp)[k] = s.stack[k] :=
      fun k hk => Vector.getElem_set_ne hsp k.isLt hk.symm
    refine ⟨_, exec_call_of_room s nnn hsp, toNat_absAddr nnn, rfl, hpushed, hothers, rfl, ?_⟩
    obtain ⟨hregs, hidx, htimers, hmem, hdisplay, hlatch, hdriver⟩ :=
      keepsAllButStack_goTo s ⟨s.sp.val + 1, by omega⟩ (s.stack.set s.sp.val s.pc hsp) (absAddr nnn)
    refine ⟨hregs, hidx, htimers, hmem, hdisplay, hlatch, hdriver, ?_⟩
    rintro t' ⟨hsp', hstack'⟩
    have hslot : t'.stack[s.sp.val] = s.pc := by rw [hstack']; exact hpushed
    obtain ⟨u, he, hpc, hspu, hres⟩ := exec_ret_of_top hsp (congrArg Fin.val hsp') hslot
    exact ⟨u, he, hpc, Fin.ext hspu, hres⟩

/-- Settles O27: an empty stack enters the fault, and a live slot holds an address of at most `0xFFE`. -/
theorem returnPopsTheCallersAddress : Obligations.ReturnPopsTheCallersAddress := by
  refine ⟨Laws.RoundTrip.ret rfl, fun s => ⟨?empty, ?nonempty⟩⟩
  case empty =>
    intro hsp
    exact ⟨_, exec_ret_of_empty s hsp, onlyLatchSet_raise s _ _⟩
  case nonempty =>
    intro hsp
    exact ⟨_, exec_ret_of_nonempty s hsp, rfl, rfl, rfl, rfl, fun hs => hs.toNat_returnTarget_le hsp,
      keepsAllButStack_goTo s _ s.stack _⟩

/-! ### Jumps -/

/-- Settles O28: `pc` takes the absolute address, and nothing but `pc` and the result is written. -/
theorem jumpSetsTheProgramCounter : Obligations.JumpSetsTheProgramCounter := by
  intro nnn
  have htarget := toNat_absAddr nnn
  refine ⟨Laws.RoundTrip.jump nnn rfl, fun s => ?_⟩
  refine ⟨_, exec_jump nnn s, htarget, rfl, keepsAllButRegs_goTo s _, ?self, ?corner⟩
  case self =>
    intro hpc
    exact sameCore_goTo_self (BitVec.eq_of_toNat_eq (hpc.trans htarget.symm))
  case corner =>
    rintro rfl hfault keys rnd
    exact cycle_goTo_beyond_memory hfault htarget.ge keys rnd

/-- Settles O32: the target is the sum itself, which can lie beyond memory. -/
theorem jumpOffsetAddsV0 : Obligations.JumpOffsetAddsV0 := by
  intro nnn
  refine ⟨Laws.RoundTrip.jumpOffset nnn rfl, fun s => ?_⟩
  have htarget := toNat_offsetTarget s nnn
  refine ⟨_, exec_jumpOffset nnn s, htarget, rfl, keepsAllButRegs_goTo s _, ?_⟩
  intro hbeyond hfault keys rnd
  exact cycle_goTo_beyond_memory hfault (hbeyond.trans htarget.ge) keys rnd

/-! ### Skips -/

/-- Settles O30: both are `skipIf`, on equality with `kk` and on its negation. -/
theorem skipsAgainstAnImmediate : Obligations.SkipsAgainstAnImmediate := by
  intro x kk
  refine ⟨Laws.RoundTrip.skipEqImm x kk rfl, Laws.RoundTrip.skipNeqImm x kk rfl, fun s => ⟨?eq, ?neq⟩⟩
  case eq => exact ⟨_, exec_skipEqImm x kk s, s.skipIf_beq_pc _ _, rfl, keepsAllButRegs_skipIf s _⟩
  case neq => exact ⟨_, exec_skipNeqImm x kk s, s.skipIf_bne_pc _ _, rfl, keepsAllButRegs_skipIf s _⟩

/-- Settles O31: the decoder does not examine the low nibble, and both are `skipIf` on the two registers. -/
theorem skipsBetweenRegisters : Obligations.SkipsBetweenRegisters := by
  intro x y n
  obtain ⟨hdecode5, hdecode9⟩ := bitsExaminedByTheDecoder.1 x y n
  refine ⟨hdecode5, hdecode9, fun s => ⟨?eq, ?neq⟩⟩
  case eq => exact ⟨_, exec_skipEqReg x y s, s.skipIf_beq_pc _ _, rfl, keepsAllButRegs_skipIf s _⟩
  case neq => exact ⟨_, exec_skipNeqReg x y s, s.skipIf_bne_pc _ _, rfl, keepsAllButRegs_skipIf s _⟩

end Sys2Proof.Machine
end

section
/-! SUPPORT. Register arithmetic and logic (R160 to R171): each instruction is one register write, or a result and then
a flag (R173), before `pc` advances; and the values of results and flags as natural numbers. -/

namespace Sys2Proof.Machine

/-! ### What each instruction is -/

theorem exec_loadImm (x : RegNum) (kk : Byte) (s : State) :
    exec (.loadImm x kk) s = .next (s.setReg x kk).advance := rfl

theorem exec_addImm (x : RegNum) (kk : Byte) (s : State) :
    exec (.addImm x kk) s = .next (s.setReg x (s.reg x + kk)).advance := rfl

theorem exec_random (x : RegNum) (kk : Byte) (s : State) :
    exec (.random x kk) s = .next (s.setReg x (s.rnd &&& kk)).advance := rfl

/-- With `LOGIC_WRITES_VF = false` the four logic operations write their result alone (R6, R162 to R165). -/
theorem logicOp_eq (x : RegNum) (r : Byte) (s : State) : logicOp x r s = .next (s.setReg x r).advance := by
  rw [logicOp, Config.hw_logicWritesVF, State.logicFlag_false]

theorem exec_assign (x y : RegNum) (s : State) : exec (.assign x y) s = .next (s.setReg x (s.reg y)).advance :=
  logicOp_eq x _ s

theorem exec_orReg (x y : RegNum) (s : State) :
    exec (.orReg x y) s = .next (s.setReg x (s.reg x ||| s.reg y)).advance := logicOp_eq x _ s

theorem exec_andReg (x y : RegNum) (s : State) :
    exec (.andReg x y) s = .next (s.setReg x (s.reg x &&& s.reg y)).advance := logicOp_eq x _ s

theorem exec_xorReg (x y : RegNum) (s : State) :
    exec (.xorReg x y) s = .next (s.setReg x (s.reg x ^^^ s.reg y)).advance := logicOp_eq x _ s

theorem exec_addWithCarry (x y : RegNum) (s : State) : exec (.addWithCarry x y) s =
    .next (s.setRegFlag x (s.reg x + s.reg y) (carryOut (s.reg x) (s.reg y))).advance := rfl

theorem exec_subNotBorrow (x y : RegNum) (s : State) : exec (.subNotBorrow x y) s =
    .next (s.setRegFlag x (s.reg x - s.reg y) (notBorrow (s.reg x) (s.reg y))).advance := rfl

theorem exec_subRevNotBorrow (x y : RegNum) (s : State) : exec (.subRevNotBorrow x y) s =
    .next (s.setRegFlag x (s.reg y - s.reg x) (notBorrow (s.reg y) (s.reg x))).advance := rfl

/-! ### The registers after a result and a flag (R173) -/

theorem State.reg_setRegFlag_VF (s : State) (x : RegNum) (r : Byte) (f : Bool) :
    (s.setRegFlag x r f).reg VF = flagByte f := by
  rw [State.reg_setRegFlag, if_pos rfl]

theorem State.reg_setRegFlag_self (s : State) {x : RegNum} (r : Byte) (f : Bool) (hx : x ≠ VF) :
    (s.setRegFlag x r f).reg x = r := by
  rw [State.reg_setRegFlag, if_neg hx, if_pos rfl]

/-! ### Results and flags as natural numbers (R172) -/

/-- `BitVec.toNat_sub` with the minuend first, as R167 writes it. -/
theorem toNat_byte_sub (a b : Byte) : (a - b).toNat = (a.toNat + 256 - b.toNat) % 256 := by
  have := b.isLt
  rw [BitVec.toNat_sub]
  omega

theorem toNat_byte_shiftRight_one (a : Byte) : (a >>> 1).toNat = a.toNat / 2 := by
  rw [BitVec.toNat_ushiftRight, Nat.shiftRight_eq_div_pow, pow_one]

theorem toNat_byte_shiftLeft_one (a : Byte) : (a <<< 1).toNat = a.toNat * 2 % 256 := by
  rw [BitVec.toNat_shiftLeft, Nat.shiftLeft_eq, pow_one]

theorem toNat_flagByte (f : Bool) : (flagByte f).toNat = f.toNat := by
  cases f <;> rfl

theorem flagByte_decide (p : Prop) [Decidable p] : flagByte (decide p) = if p then 1 else 0 := by
  simp only [flagByte, decide_eq_true_eq]

theorem flagByte_carryOut (a b : Byte) : flagByte (carryOut a b) = if a.toNat + b.toNat > 255 then 1 else 0 :=
  flagByte_decide _

theorem flagByte_notBorrow (a b : Byte) : flagByte (notBorrow a b) = if a.toNat ≥ b.toNat then 1 else 0 :=
  flagByte_decide _

theorem toNat_flagByte_shiftedOutRight (a : Byte) : (flagByte (shiftedOutRight a)).toNat = a.toNat % 2 := by
  rw [toNat_flagByte, shiftedOutRight, BitVec.getLsbD, Nat.toNat_testBit, pow_zero, Nat.div_one]

/-- A byte is below 256, so nothing stands above bit 7. -/
theorem toNat_flagByte_shiftedOutLeft (a : Byte) : (flagByte (shiftedOutLeft a)).toNat = a.toNat / 128 := by
  have := a.isLt
  rw [toNat_flagByte, shiftedOutLeft, BitVec.getLsbD, Nat.toNat_testBit]
  omega

end Sys2Proof.Machine
end

section
/-! PROOF. The family of register arithmetic and logic (R160 to R171). -/

namespace Sys2Proof.Machine

/-! ### One register written -/

/-- Settles O34: the one write is `kk` to `Vx`. -/
theorem loadImmWritesTheByte : Obligations.LoadImmWritesTheByte := by
  intro x kk
  refine ⟨Laws.RoundTrip.loadImm x kk rfl, fun s => ?_⟩
  exact ⟨_, exec_loadImm x kk s, s.reg_setReg_self x kk, rfl, rfl, keepsAllButRegs_setReg s x _⟩

/-- Settles O35: the one write is the sum, so a carry out of it reaches no register. -/
theorem addImmWrapsWithoutFlag : Obligations.AddImmWrapsWithoutFlag := by
  intro x kk
  refine ⟨Laws.RoundTrip.addImm x kk rfl, fun s => ?_⟩
  refine ⟨_, exec_addImm x kk s, ?_, rfl, rfl, keepsAllButRegs_setReg s x _⟩
  rw [State.advance_reg, State.reg_setReg_self, BitVec.toNat_add]

/-- Settles O36: each is one write to `Vx`, of a byte the bit vectors' own operation gives bit by bit. -/
theorem logicOperationsWriteNoFlag : Obligations.LogicOperationsWriteNoFlag := by
  intro x y
  refine ⟨Laws.RoundTrip.assign x y rfl, Laws.RoundTrip.orReg x y rfl, Laws.RoundTrip.andReg x y rfl,
    Laws.RoundTrip.xorReg x y rfl, fun s => ⟨?assign, ?or, ?and, ?xor⟩⟩
  case assign =>
    exact ⟨_, exec_assign x y s, s.reg_setReg_self x _, rfl, rfl, keepsAllButRegs_setReg s x _⟩
  case or =>
    refine ⟨_, exec_orReg x y s, fun k => ?_, rfl, rfl, keepsAllButRegs_setReg s x _⟩
    rw [State.advance_reg, State.reg_setReg_self, BitVec.getLsbD_or]
  case and =>
    refine ⟨_, exec_andReg x y s, fun k => ?_, rfl, rfl, keepsAllButRegs_setReg s x _⟩
    rw [State.advance_reg, State.reg_setReg_self, BitVec.getLsbD_and]
  case xor =>
    refine ⟨_, exec_xorReg x y s, fun k => ?_, rfl, rfl, keepsAllButRegs_setReg s x _⟩
    rw [State.advance_reg, State.reg_setReg_self, BitVec.getLsbD_xor]

/-- Settles O42: the random byte is read from the state, so it is any byte. -/
theorem randomMasksTheInputByte : Obligations.RandomMasksTheInputByte := by
  intro x kk
  refine ⟨Laws.RoundTrip.random x kk rfl, fun s => ?_⟩
  refine ⟨_, exec_random x kk s, fun k => ?_, rfl, rfl, keepsAllButRegs_setReg s x _⟩
  rw [State.advance_reg, State.reg_setReg_self, BitVec.getLsbD_and]

/-! ### A result, then a flag (R173) -/

/-- Settles O37: both are computed from the old values, and the carry is written last. -/
theorem addWithCarrySetsTheCarry : Obligations.AddWithCarrySetsTheCarry := by
  intro x y
  refine ⟨Laws.RoundTrip.addWithCarry x y rfl, fun s => ?_⟩
  refine ⟨_, exec_addWithCarry x y s, fun hx => ?result, ?flag, rfl, rfl, keepsAllButRegs_setRegFlag s x _ _⟩
  case result => rw [State.advance_reg, State.reg_setRegFlag_self s _ _ hx, BitVec.toNat_add]
  case flag => exact (s.reg_setRegFlag_VF x _ _).trans (flagByte_carryOut _ _)

/-- Settles O38: both are computed from the old values, and NOT borrow is written last. -/
theorem subtractSetsNotBorrow : Obligations.SubtractSetsNotBorrow := by
  intro x y
  refine ⟨Laws.RoundTrip.subNotBorrow x y rfl, fun s => ?_⟩
  refine ⟨_, exec_subNotBorrow x y s, fun hx => ?result, ?flag, rfl, rfl, keepsAllButRegs_setRegFlag s x _ _⟩
  case result => rw [State.advance_reg, State.reg_setRegFlag_self s _ _ hx, toNat_byte_sub]
  case flag => exact (s.reg_setRegFlag_VF x _ _).trans (flagByte_notBorrow _ _)

/-- Settles O40: as for O38 with the operands exchanged, the destination still `Vx`. -/
theorem reverseSubtractSetsNotBorrow : Obligations.ReverseSubtractSetsNotBorrow := by
  intro x y
  refine ⟨Laws.RoundTrip.subRevNotBorrow x y rfl, fun s => ?_⟩
  refine ⟨_, exec_subRevNotBorrow x y s, fun hx => ?result, ?flag, rfl, rfl, keepsAllButRegs_setRegFlag s x _ _⟩
  case result => rw [State.advance_reg, State.reg_setRegFlag_self s _ _ hx, toNat_byte_sub]
  case flag => exact (s.reg_setRegFlag_VF x _ _).trans (flagByte_notBorrow _ _)

/-- Settles O39: with `SHIFT_SOURCE = Vx` half of `Vx` is the result, and its old bit 0 is written last. -/
theorem shiftRightMovesBitZeroOut : Obligations.ShiftRightMovesBitZeroOut := by
  intro x y
  refine ⟨Laws.RoundTrip.shiftRight x y rfl, fun s => ?_⟩
  refine ⟨_, exec_shiftRight x y s, fun hx => ?result, ?flag, rfl, rfl, keepsAllButRegs_setRegFlag s x _ _,
    Config.hw_shiftSource, rfl, rfl⟩
  case result => rw [State.advance_reg, State.reg_setRegFlag_self s _ _ hx, toNat_byte_shiftRight_one]
  case flag => exact (congrArg BitVec.toNat (s.reg_setRegFlag_VF x _ _)).trans (toNat_flagByte_shiftedOutRight _)

/-- Settles O41: with `SHIFT_SOURCE = Vx` twice `Vx` is the result, and its old bit 7 is written last. -/
theorem shiftLeftMovesBitSevenOut : Obligations.ShiftLeftMovesBitSevenOut := by
  intro x y
  refine ⟨Laws.RoundTrip.shiftLeft x y rfl, fun s => ?_⟩
  refine ⟨_, exec_shiftLeft x y s, fun hx => ?result, ?flag, rfl, rfl, keepsAllButRegs_setRegFlag s x _ _,
    Config.hw_shiftSource, rfl, rfl⟩
  case result => rw [State.advance_reg, State.reg_setRegFlag_self s _ _ hx, toNat_byte_shiftLeft_one]
  case flag => exact (congrArg BitVec.toNat (s.reg_setRegFlag_VF x _ _)).trans (toNat_flagByte_shiftedOutLeft _)

end Sys2Proof.Machine
end

section
/-! SUPPORT. The index register and memory operations (R180 to R185): what each leaves alone, the addresses it computes
as natural numbers, and what one byte or register holds after a store or a load. -/

namespace Sys2Proof.Machine

/-! ### The instructions that write `I` (R180 to R182) -/

theorem exec_setIndex (nnn : Addr) (s : State) : exec (.setIndex nnn) s = .next (s.setIdx (absAddr nnn)).advance := rfl

theorem exec_addIndex (x : RegNum) (s : State) :
    exec (.addIndex x) s = .next (s.setIdx (s.idx + (s.reg x).setWidth 16)).advance := rfl

theorem exec_loadFontAddr (x : RegNum) (s : State) :
    exec (.loadFontAddr x) s = .next (s.setIdx (glyphAddr (s.reg x))).advance := rfl

/-- The frame of an instruction that writes no more than `I`, `pc` and the result. -/
def KeepsAllButIdx (s t : State) : Prop :=
  KeepsRegs [] s t ∧ KeepsStack s t ∧ KeepsTimers s t ∧ KeepsMem s t ∧ KeepsDisplay s t ∧ KeepsLatch s t ∧
    KeepsDriver s t

theorem keepsAllButIdx_setIdx (s : State) (w : Word) : KeepsAllButIdx s (s.setIdx w).advance :=
  ⟨fun _ _ => rfl, ⟨rfl, rfl⟩, ⟨rfl, rfl⟩, fun _ => rfl, fun _ => rfl, ⟨rfl, rfl, rfl⟩, rfl, rfl, rfl, rfl, rfl⟩

theorem toNat_add_byte (w : Word) (b : Byte) : (w + b.setWidth 16).toNat = (w.toNat + b.toNat) % 65536 := by
  rw [BitVec.toNat_add, BitVec.toNat_setWidth_of_le (by omega)]

/-- The address is at most `0x54B`, so it does not wrap in 16 bits (R182). -/
theorem toNat_glyphAddr (b : Byte) : (glyphAddr b).toNat = 0x050 + 5 * b.toNat := by
  have := b.isLt
  unfold glyphAddr
  bv_omega

theorem State.reset_readByte (a : Nat) : State.reset.readByte a = resetByte a := rfl

/-- A memory with the reset contents in the font's range holds the glyph of a digit there (R33). -/
theorem State.readByte_glyph {s : State}
    (h : ∀ a, 0x050 ≤ a → a ≤ 0x09F → s.readByte a = State.reset.readByte a) (d : Fin 16)
    (k : Fin 5) : s.readByte (0x050 + 5 * d.val + k.val) = standardFont[d][k] := by
  rw [h _ (by omega) (by omega), State.reset_readByte, resetByte_font]

/-! ### The stores (R183, R184) -/

/-- The frame of an instruction that writes no more than memory, `pc` and the result. -/
def KeepsAllButMem (s t : State) : Prop :=
  KeepsRegs [] s t ∧ KeepsIdx s t ∧ KeepsStack s t ∧ KeepsTimers s t ∧ KeepsDisplay s t ∧ KeepsLatch s t ∧
    KeepsDriver s t

theorem keepsAllButMem_setMem (s : State) (m : Memory) : KeepsAllButMem s (s.setMem m).advance :=
  ⟨fun _ _ => rfl, rfl, ⟨rfl, rfl⟩, ⟨rfl, rfl⟩, fun _ => rfl, ⟨rfl, rfl, rfl⟩, rfl, rfl, rfl, rfl, rfl⟩

/-- Byte `k` of a multi-byte store. -/
theorem State.readByte_stored (s : State) (base : Nat) (bs : List Byte) {k : Nat} (hk : k < bs.length) :
    (s.setMem (Memory.writeBytes s.mem base bs)).advance.readByte (base + k) = bs[k] := by
  rw [State.advance_readByte, State.readByte_setMem_writeBytes, dif_pos (by omega)]
  simp only [Nat.add_sub_cancel_left]

/-- Each decimal digit fits in a byte, so none is truncated (R183). -/
theorem toNat_bcdDigits (b : Byte) :
    (bcdDigits b)[0].toNat = b.toNat / 100 ∧ (bcdDigits b)[1].toNat = b.toNat / 10 % 10 ∧
      (bcdDigits b)[2].toNat = b.toNat % 10 := by
  have := b.isLt
  have hfits {n : Nat} (hn : n < 256) : (BitVec.ofNat 8 n).toNat = n := by
    rw [BitVec.toNat_ofNat, Nat.mod_eq_of_lt hn]
  exact ⟨hfits (by omega), hfits (by omega), hfits (by omega)⟩

/-- store-bcd puts hundreds, tens, ones at three rising addresses (R183). -/
theorem State.toNat_readByte_storedBcd (s : State) (base : Nat) (b : Byte) :
    let t := (s.setMem (Memory.writeBytes s.mem base (bcdDigits b))).advance
    (t.readByte base).toNat = b.toNat / 100 ∧ (t.readByte (base + 1)).toNat = b.toNat / 10 % 10 ∧
      (t.readByte (base + 2)).toNat = b.toNat % 10 := by
  have hdigit (k : Nat) (hk : k < 3) := s.readByte_stored base (bcdDigits b) (k := k) hk
  have hhundreds := hdigit 0 (by omega)
  rw [Nat.add_zero] at hhundreds
  simp only [hhundreds, hdigit 1 (by omega), hdigit 2 (by omega)]
  exact toNat_bcdDigits b

/-- store-regs puts register `r` at `I + r` (R184). -/
theorem State.readByte_storedRegs (s : State) {x r : RegNum} (hr : r.toNat ≤ x.toNat) :
    (s.setMem (Memory.writeBytes s.mem s.idx.toNat (s.regsUpTo (x.toNat + 1)))).advance.readByte
      (s.idx.toNat + r.toNat) = s.reg r := by
  rw [State.readByte_stored s _ _ (by rw [State.length_regsUpTo]; omega), State.getElem_regsUpTo, BitVec.ofNat_toNat,
    BitVec.setWidth_eq]

/-- A store-regs with the result `Ok` was in range, for otherwise its result is `Fatal`. -/
theorem exec_storeRegs_ok {x : RegNum} {s t : State} (h : exec (.storeRegs x) s = .next t) (hok : t.result = some .ok) :
    s.idx.toNat + x.toNat ≤ 0xFFF ∧
      t = (s.setMem (Memory.writeBytes s.mem s.idx.toNat (s.regsUpTo (x.toNat + 1)))).advance := by
  by_cases hin : s.idx.toNat + x.toNat ≤ 0xFFF
  · rw [exec_storeRegs_of_in s x hin] at h
    cases h
    exact ⟨hin, rfl⟩
  · rw [exec_storeRegs_of_out s x (by omega)] at h
    cases h
    cases hok

/-! ### The load (R185) -/

/-- load-regs puts the byte at `base + r` in register `r`, and leaves the registers above alone. -/
theorem State.reg_loadedRegs (s : State) (base : Nat) (x r : RegNum) :
    (s.setRegsFrom 0 (Memory.readBytes s.mem base (x.toNat + 1))).advance.reg r =
      if r.toNat ≤ x.toNat then s.readByte (base + r.toNat) else s.reg r := by
  have := x.isLt
  rw [State.advance_reg, State.reg_setRegsFrom s 0 _ (by rw [Memory.length_readBytes]; omega)]
  by_cases hr : r.toNat ≤ x.toNat
  · rw [dif_pos (by rw [Memory.length_readBytes]; omega), if_pos hr, Memory.getElem_readBytes]
    rfl
  · rw [dif_neg (by rw [Memory.length_readBytes]; omega), if_neg hr]

theorem State.setRegsFrom_pc (s : State) (k : Nat) (bs : List Byte) : (s.setRegsFrom k bs).pc = s.pc := by
  rw [State.setRegsFrom_eq]

theorem keepsAllButRegs_loadRegs (s : State) (x : RegNum) (bs : List Byte) (hlen : bs.length = x.toNat + 1) :
    KeepsAllButRegs (writesRegs (.loadRegs x)) s (s.setRegsFrom 0 bs).advance :=
  keepsAllButRegs_of (keepsRegs_loadRegs s x bs hlen) (by rw [State.setRegsFrom_eq]; rfl)

end Sys2Proof.Machine
end

section
/-! PROOF. The family of the index register and memory (R180 to R185). -/

namespace Sys2Proof.Machine

/-! ### Registers to memory and back -/

/-- Settles O47: each byte of the store is read back at its place, and bytes outside its range are not written. -/
theorem storeRegsCopiesRegistersToMemory : Obligations.StoreRegsCopiesRegistersToMemory := by
  intro x
  refine ⟨Laws.RoundTrip.storeRegs x rfl, fun s => ⟨?out, ?inRange⟩⟩
  case out =>
    intro h
    exact ⟨_, exec_storeRegs_of_out s x h, onlyLatchSet_raise s _ _⟩
  case inRange =>
    intro h
    have houtside := keepsMemOutside_writeBytes s s.idx.toNat (s.regsUpTo (x.toNat + 1))
    rw [State.length_regsUpTo] at houtside
    exact ⟨_, exec_storeRegs_of_in s x h, fun r hr => s.readByte_storedRegs hr, houtside, rfl, rfl,
      keepsAllButMem_setMem s _⟩

/-- Settles O48: register `r` takes the byte at `I + r`, which after a store-regs is what register `r` was. -/
theorem loadRegsCopiesMemoryToRegisters : Obligations.LoadRegsCopiesMemoryToRegisters := by
  intro x
  refine ⟨Laws.RoundTrip.loadRegs x rfl, fun s => ⟨?out, ?inRange, ?roundTrip⟩⟩
  case out =>
    intro h
    exact ⟨_, exec_loadRegs_of_out s x h, onlyLatchSet_raise s _ _⟩
  case inRange =>
    intro h
    obtain ⟨-, hframe⟩ := keepsAllButRegs_loadRegs s x _ (Memory.length_readBytes s.mem s.idx.toNat (x.toNat + 1))
    refine ⟨_, exec_loadRegs_of_in s x h, fun r hr => ?loaded, fun r hr => ?above, ?pc, rfl, hframe⟩
    case loaded => rw [State.reg_loadedRegs, if_pos hr]
    case above => rw [State.reg_loadedRegs, if_neg (by omega)]
    case pc => rw [State.advance_pc, State.setRegsFrom_pc]
  case roundTrip =>
    intro t u hstore hok hidx hbytes
    obtain ⟨hin, rfl⟩ := exec_storeRegs_ok hstore hok
    rw [State.advance_idx, State.setMem_idx] at hidx hbytes
    refine ⟨_, exec_loadRegs_of_in u x (by rw [hidx]; exact hin), rfl, fun r hr => ?_⟩
    rw [State.reg_loadedRegs, if_pos hr, hidx, hbytes r hr, State.readByte_storedRegs s hr]

/-! ### The index register -/

/-- Settles O43: the one write is the zero-extended address. -/
theorem setIndexWritesTheAddress : Obligations.SetIndexWritesTheAddress := by
  intro nnn
  refine ⟨Laws.RoundTrip.setIndex nnn rfl, fun s => ?_⟩
  exact ⟨_, exec_setIndex nnn s, toNat_absAddr nnn, rfl, rfl, keepsAllButIdx_setIdx s _⟩

/-- Settles O44: the one write is the 16-bit sum, so a carry out of it reaches no register. -/
theorem addIndexWrapsAtSixteenBits : Obligations.AddIndexWrapsAtSixteenBits := by
  intro x
  refine ⟨Laws.RoundTrip.addIndex x rfl, fun s => ?_⟩
  exact ⟨_, exec_addIndex x s, toNat_add_byte s.idx (s.reg x), rfl, rfl, keepsAllButIdx_setIdx s _⟩

/-- Settles O45: the address does not wrap, and for a digit it is where the font has the digit's glyph. -/
theorem loadFontAddrPointsAtTheGlyph : Obligations.LoadFontAddrPointsAtTheGlyph := by
  intro x
  refine ⟨Laws.RoundTrip.loadFontAddr x rfl, fun s => ?_⟩
  have haddr := toNat_glyphAddr (s.reg x)
  obtain ⟨hregs, hstack, htimers, hmem, hdisplay, hlatch, hdriver⟩ := keepsAllButIdx_setIdx s (glyphAddr (s.reg x))
  refine ⟨_, exec_loadFontAddr x s, haddr, rfl, rfl, hregs, hstack, htimers, hmem, hdisplay, hlatch, hdriver, ?_⟩
  intro hfont d k hd
  rw [hmem, State.advance_idx, State.setIdx_idx, haddr, hd, State.readByte_glyph hfont]

/-! ### The decimal digits -/

/-- Settles O46: the three digits are the three bytes of one store, whose range is checked first. -/
theorem storeBcdWritesThreeDigits : Obligations.StoreBcdWritesThreeDigits := by
  intro x
  refine ⟨Laws.RoundTrip.storeBcd x rfl, fun s => ⟨?out, ?inRange⟩⟩
  case out =>
    intro h
    exact ⟨_, exec_storeBcd_of_out s x h, onlyLatchSet_raise s _ _⟩
  case inRange =>
    intro h
    obtain ⟨hhundreds, htens, hones⟩ := s.toNat_readByte_storedBcd s.idx.toNat (s.reg x)
    exact ⟨_, exec_storeBcd_of_in s x h, hhundreds, htens, hones,
      keepsMemOutside_writeBytes s s.idx.toNat (bcdDigits (s.reg x)), rfl, rfl, keepsAllButMem_setMem s _⟩

end Sys2Proof.Machine
end

section
/-! SUPPORT. The display operations (R190 to R192): what each leaves alone, and the state after a draw that completes,
in terms of the sprite's bits and the cells they fall on. -/

namespace Sys2Proof.Machine

theorem exec_clearScreen (s : State) : exec .clearScreen s = .next (s.setFb fbClear).advance := rfl

/-- The frame of an instruction that writes no more than the framebuffer, the listed registers, `pc` and the result. -/
def KeepsAllButDisplay (except : List RegNum) (s t : State) : Prop :=
  KeepsRegs except s t ∧ KeepsIdx s t ∧ KeepsStack s t ∧ KeepsTimers s t ∧ KeepsMem s t ∧ KeepsLatch s t ∧
    KeepsDriver s t

theorem keepsAllButDisplay_setFb (s : State) (f : Frame) : KeepsAllButDisplay [] s (s.setFb f).advance :=
  ⟨fun _ _ => rfl, rfl, ⟨rfl, rfl⟩, ⟨rfl, rfl⟩, fun _ => rfl, ⟨rfl, rfl, rfl⟩, rfl, rfl, rfl, rfl, rfl⟩

theorem flagByte_eq_zero_or_one (f : Bool) : flagByte f = 0 ∨ flagByte f = 1 := by
  cases f
  · exact .inl rfl
  · exact .inr rfl

theorem flagByte_eq_one_iff (f : Bool) : flagByte f = 1 ↔ f = true := by
  cases f <;> decide

/-- What `draw x y n` makes of the framebuffer, and whether a lit cell lay under a 1 bit. -/
def State.drawCanvas (s : State) (x y : RegNum) (n : Height) : Canvas :=
  drawSprite s.fb (s.reg x) (s.reg y) (Memory.readBytes s.mem s.idx.toNat n.toNat)

/-- The state after a `draw x y n` that completes. -/
def State.drawn (s : State) (x y : RegNum) (n : Height) : State :=
  ((s.setFb (s.drawCanvas x y n).frame).setFlag (s.drawCanvas x y n).hit).advance

theorem exec_draw_eq_drawn (s : State) (x y : RegNum) (n : Height)
    (h : ¬(1 ≤ n.toNat ∧ s.idx.toNat + n.toNat - 1 > 0xFFF)) :
    exec (.draw x y n) s = .next (s.drawn x y n) :=
  exec_draw_of_in s x y n h

/-- A draw with the result `Ok` was in range, for otherwise its result is `Fatal`. -/
theorem exec_draw_ok {s t : State} {x y : RegNum} {n : Height} (h : exec (.draw x y n) s = .next t)
    (hok : t.result = some .ok) :
    ¬(1 ≤ n.toNat ∧ s.idx.toNat + n.toNat - 1 > 0xFFF) ∧ t = s.drawn x y n := by
  by_cases hout : 1 ≤ n.toNat ∧ s.idx.toNat + n.toNat - 1 > 0xFFF
  · rw [exec_draw_of_out s x y n hout] at h
    cases h
    cases hok
  · rw [exec_draw_eq_drawn s x y n hout] at h
    cases h
    exact ⟨hout, rfl⟩

section draw

variable (s : State) (x y : RegNum) (n : Height)

theorem keepsAllButDisplay_drawn : KeepsAllButDisplay [15] s (s.drawn x y n) :=
  ⟨fun _ hr => State.reg_setReg_ne (s.setFb _) _ (List.ne_of_not_mem_cons hr), rfl, ⟨rfl, rfl⟩, ⟨rfl, rfl⟩,
    fun _ => rfl, ⟨rfl, rfl, rfl⟩, rfl, rfl, rfl, rfl, rfl⟩

/-- `plotSprite_spec` at the sprite of `draw x y n`, whose at most 15 rows are the bytes at `I`. -/
theorem drawCanvas_spec :
    (∀ r c, r < n.toNat → c < 8 → fbGet (s.drawCanvas x y n).frame (spriteCell s x y r c) =
      (fbGet s.fb (spriteCell s x y r c) ^^ spriteBit s r c)) ∧
    (∀ i, (∀ r c, r < n.toNat → c < 8 → i ≠ spriteCell s x y r c) →
      fbGet (s.drawCanvas x y n).frame i = fbGet s.fb i) ∧
    ((s.drawCanvas x y n).hit = true ↔ ∃ r c, r < n.toNat ∧ c < 8 ∧ spriteBit s r c = true ∧
      fbGet s.fb (spriteCell s x y r c) = true) := by
  have hrows : (Memory.readBytes s.mem s.idx.toNat n.toNat).length ≤ 32 := by
    rw [Memory.length_readBytes]; omega
  have hsprite := plotSprite_spec _ ⟨s.fb, false⟩ ((s.reg x).toNat % 64) ((s.reg y).toNat % 32) hrows
  simp only [Memory.length_readBytes, Memory.getElem_readBytes, Bool.false_eq_true, false_or, exists_prop] at hsprite
  exact hsprite

variable {r c : Nat}

/-- Each sprite pixel is XORed into its cell. -/
theorem fbGet_drawn_spriteCell (hr : r < n.toNat) (hc : c < 8) :
    fbGet (s.drawn x y n).fb (spriteCell s x y r c) = (fbGet s.fb (spriteCell s x y r c) ^^ spriteBit s r c) := by
  obtain ⟨hpixel, -, -⟩ := drawCanvas_spec s x y n
  exact hpixel r c hr hc

/-- A cell under no sprite pixel is left alone. -/
theorem fbGet_drawn_of_ne {i : CellIndex} (h : ∀ r c, r < n.toNat → c < 8 → i ≠ spriteCell s x y r c) :
    fbGet (s.drawn x y n).fb i = fbGet s.fb i := by
  obtain ⟨-, hother, -⟩ := drawCanvas_spec s x y n
  exact hother i h

theorem drawn_flag : (s.drawn x y n).reg 15 = flagByte (s.drawCanvas x y n).hit :=
  State.reg_setFlag (s.setFb _) _ 15

theorem drawn_flag_eq_zero_or_one : (s.drawn x y n).reg 15 = 0 ∨ (s.drawn x y n).reg 15 = 1 := by
  rw [drawn_flag]
  exact flagByte_eq_zero_or_one _

/-- `VF` after a draw: a lit cell lay under a 1 bit. -/
theorem drawn_flag_eq_one_iff : (s.drawn x y n).reg 15 = 1 ↔
    ∃ r c, r < n.toNat ∧ c < 8 ∧ spriteBit s r c = true ∧ fbGet s.fb (spriteCell s x y r c) = true := by
  rw [drawn_flag, flagByte_eq_one_iff]
  obtain ⟨-, -, hhit⟩ := drawCanvas_spec s x y n
  exact hhit

/-- A cell under a 1 bit is inverted. -/
theorem fbGet_drawn_of_spriteBit (hr : r < n.toNat) (hc : c < 8) (hbit : spriteBit s r c = true) :
    fbGet (s.drawn x y n).fb (spriteCell s x y r c) = !fbGet s.fb (spriteCell s x y r c) := by
  rw [fbGet_drawn_spriteCell s x y n hr hc, hbit, Bool.xor_true]

/-! ### The same draw again (R192) -/

/-- A draw writes neither `I` nor memory, so the sprite is the same after it. -/
theorem spriteBit_drawn : spriteBit (s.drawn x y n) = spriteBit s := rfl

variable {s x y n}

theorem spriteCell_congr {t : State} (hx : t.reg x = s.reg x) (hy : t.reg y = s.reg y) :
    spriteCell t x y = spriteCell s x y := by
  funext r c
  rw [spriteCell, spriteCell, hx, hy]

/-- XOR is its own inverse: the second draw at the same place restores every cell. -/
theorem keepsDisplay_drawn_drawn (hcell : spriteCell (s.drawn x y n) x y = spriteCell s x y) :
    KeepsDisplay s ((s.drawn x y n).drawn x y n) := by
  intro i
  by_cases hi : ∃ r c, r < n.toNat ∧ c < 8 ∧ i = spriteCell s x y r c
  · obtain ⟨r, c, hr, hc, rfl⟩ := hi
    have hsecond := fbGet_drawn_spriteCell (s.drawn x y n) x y n hr hc
    rw [hcell, spriteBit_drawn, fbGet_drawn_spriteCell s x y n hr hc] at hsecond
    rw [hsecond, Bool.xor_assoc, Bool.xor_self, Bool.xor_false]
  · have hne : ∀ r c, r < n.toNat → c < 8 → i ≠ spriteCell s x y r c := fun r c hr hc e =>
      hi ⟨r, c, hr, hc, e⟩
    rw [fbGet_drawn_of_ne (s.drawn x y n) x y n (hcell ▸ hne), fbGet_drawn_of_ne s x y n hne]

/-- The second flag: a 1 bit lies over a cell that was unlit before the first draw, which lit it. -/
theorem drawn_drawn_flag_eq_one_iff (hcell : spriteCell (s.drawn x y n) x y = spriteCell s x y) :
    ((s.drawn x y n).drawn x y n).reg 15 = 1 ↔
      ∃ r c, r < n.toNat ∧ c < 8 ∧ spriteBit s r c = true ∧ fbGet s.fb (spriteCell s x y r c) = false := by
  rw [drawn_flag_eq_one_iff, hcell, spriteBit_drawn]
  refine exists₂_congr fun r c => and_congr_right fun hr => and_congr_right fun hc => and_congr_right fun hbit => ?_
  rw [fbGet_drawn_of_spriteBit s x y n hr hc hbit, Bool.not_eq_true']

end draw

end Sys2Proof.Machine
end

section
/-! PROOF. The family of the display (R190 to R192). -/

namespace Sys2Proof.Machine

/-- Settles O50: the range check is over all `n` rows at once, and no two sprite pixels fall on the same cell, so each
cell is XORed at most once. -/
theorem drawXorsTheSprite : Obligations.DrawXorsTheSprite := by
  intro x y n
  refine ⟨Laws.RoundTrip.draw x y n rfl, fun s => ⟨?out, ?inRange⟩⟩
  case out =>
    intro h
    exact ⟨_, exec_draw_of_out s x y n h, onlyLatchSet_raise s _ _⟩
  case inRange =>
    intro h
    exact ⟨_, exec_draw_eq_drawn s x y n h, fun _ _ => fbGet_drawn_spriteCell s x y n,
      fun _ => fbGet_drawn_of_ne s x y n, drawn_flag_eq_zero_or_one s x y n, drawn_flag_eq_one_iff s x y n, rfl, rfl,
      keepsAllButDisplay_drawn s x y n⟩

/-- Settles O51: the first draw keeps the sprite, and with `Vx` and `Vy` kept its cells, so the second draw XORs the
same bits into the same cells. -/
theorem drawTwiceRestoresTheDisplay : Obligations.DrawTwiceRestoresTheDisplay := by
  intro x y n s t hfirst hok hx hy
  obtain ⟨hin, rfl⟩ := exec_draw_ok hfirst hok
  have hcell := spriteCell_congr hx hy
  exact ⟨fun _ _ => fbGet_drawn_of_spriteBit s x y n, _, exec_draw_eq_drawn (s.drawn x y n) x y n hin,
    keepsDisplay_drawn_drawn hcell, rfl, drawn_flag_eq_zero_or_one s x y n, drawn_flag_eq_zero_or_one _ x y n,
    drawn_flag_eq_one_iff s x y n, drawn_drawn_flag_eq_one_iff hcell⟩

/-- Settles O49: the one write is the clear framebuffer. -/
theorem clearScreenUnlightsEveryCell : Obligations.ClearScreenUnlightsEveryCell :=
  ⟨Laws.RoundTrip.clearScreen rfl, fun s =>
    ⟨_, exec_clearScreen s, fbGet_fbClear, rfl, rfl, keepsAllButDisplay_setFb s _⟩⟩

end Sys2Proof.Machine
end

section
/-! SUPPORT. Key and timer operations (R200 to R205): what each is, what the timer writes leave alone, when a CYCLE waits,
and that no instruction reads `ST`. -/

namespace Sys2Proof.Machine

/-! ### The key lines (R200 to R202) -/

/-- A skip on the negation of a condition. -/
theorem State.skipIf_not_pc (s : State) (c : Bool) :
    (s.skipIf (!c)).pc = if c = true then s.pc + 2 else s.pc + 4 := by
  cases c <;> rfl

/-- With a line down there is a lowest one (R206). -/
theorem exists_lowestKey {s : State} (h : s.keys ≠ 0) : ∃ k, lowestKey s = some k :=
  Option.ne_none_iff_exists'.1 (mt (lowestKey_eq_none_iff s).1 h)

/-- A key number fits in a byte, so `Vx` takes it whole (R202). -/
theorem toNat_keyByte {k : Nat} (hk : k < 16) : (BitVec.ofNat 8 k).toNat = k := by
  rw [BitVec.toNat_ofNat, Nat.mod_eq_of_lt (by omega)]

theorem keepsDriver_wait (s : State) : KeepsDriver s s.wait := ⟨rfl, rfl, rfl, rfl, rfl⟩

/-- A CYCLE of a waiting core runs wait-for-key with no line down. -/
theorem cycle_of_waiting {s : State} {keys : Keys} (h : Waiting s keys) (rnd : Byte) :
    cycle keys rnd s = .next (s.present keys rnd).wait := by
  obtain ⟨hkeys, x, hfault, w, hfetch, hd⟩ := h
  rw [cycle_of_instr keys rnd s hfault hfetch hd, exec_waitForKey_of_none _ x hkeys]

/-- The result of a CYCLE is Waiting exactly when the core waits (R202 d); of the five results (R128) no other is. -/
theorem cycle_waiting_iff (s : State) (keys : Keys) (rnd : Byte) :
    ∃ t, cycle keys rnd s = .next t ∧ (t.result = some .waiting ↔ Waiting s keys) := by
  obtain ⟨t, r, hcycle, hres, hmeaning⟩ := cycleEndsWithOneOfFiveResults s keys rnd
  refine ⟨t, hcycle, fun hwait => ?_, fun hwait => ?_⟩
  · obtain rfl : r = .waiting := Option.some.inj (hres.symm.trans hwait)
    obtain ⟨hcore, -⟩ := hmeaning
    exact hcore
  · rw [cycle_of_waiting hwait rnd] at hcycle
    cases hcycle
    rfl

/-! ### The timers (R203 to R205) -/

theorem exec_loadDelay (x : RegNum) (s : State) : exec (.loadDelay x) s = .next (s.setReg x s.dt).advance := rfl

theorem exec_storeDelay (x : RegNum) (s : State) : exec (.storeDelay x) s = .next (s.setDt (s.reg x)).advance := rfl

theorem exec_storeSound (x : RegNum) (s : State) : exec (.storeSound x) s = .next (s.setSt (s.reg x)).advance := rfl

/-- The frame of an instruction that writes no more than the timers, `pc` and the result. -/
def KeepsAllButTimers (s t : State) : Prop :=
  KeepsRegs [] s t ∧ KeepsIdx s t ∧ KeepsStack s t ∧ KeepsMem s t ∧ KeepsDisplay s t ∧ KeepsLatch s t ∧
    KeepsDriver s t

/-- One of the timers written, or both, then `pc` advanced. -/
theorem keepsAllButTimers_advance (s : State) (delay sound : Byte) :
    KeepsAllButTimers s (State.advance { s with dt := delay, st := sound }) :=
  ⟨fun _ _ => rfl, rfl, ⟨rfl, rfl⟩, fun _ => rfl, fun _ => rfl, ⟨rfl, rfl, rfl⟩, rfl, rfl, rfl, rfl, rfl⟩

/-! ### No instruction reads `ST` (R205) -/

theorem State.setRegsFrom_setSt (s : State) (b : Byte) (k : Nat) (bs : List Byte) :
    (s.setSt b).setRegsFrom k bs = (s.setRegsFrom k bs).setSt b := by
  induction bs generalizing s k with
  | nil => rfl
  | cons c cs ih => exact ih (s.setReg (BitVec.ofNat 4 k) c) (k + 1)

/-- With another `ST` an instruction ends the same way and in the same state but for `ST`. -/
theorem exec_setSt (i : Instr) (s : State) (b : Byte) :
    ∃ t t', exec i s = .next t ∧ exec i (s.setSt b) = .next t' ∧ t'.setSt t.st = t := by
  by_cases hc : faultCondition i s
  · obtain ⟨c, hm, he⟩ := exec_of_faultCondition hc
    have hc' : faultCondition i (s.setSt b) := (faultCondition_congr rfl rfl rfl i).2 hc
    obtain ⟨c', hm', he'⟩ := exec_of_faultCondition hc'
    obtain rfl : c' = c := Option.some.inj (hm'.symm.trans hm)
    exact ⟨_, _, he, he', rfl⟩
  cases i with
  | ret =>
    have hsp : 0 < s.sp.val := Nat.pos_of_ne_zero hc
    exact ⟨_, _, exec_ret_of_nonempty s hsp, exec_ret_of_nonempty (s.setSt b) hsp, rfl⟩
  | call nnn =>
    have hsp : s.sp.val < 16 := by simp only [faultCondition] at hc; omega
    exact ⟨_, _, exec_call_of_room s nnn hsp, exec_call_of_room (s.setSt b) nnn hsp, rfl⟩
  | draw x y n => exact ⟨_, _, exec_draw_eq_drawn s x y n hc, exec_draw_eq_drawn (s.setSt b) x y n hc, rfl⟩
  | skipIfKeyDown x =>
    have hx := Nat.not_lt.1 hc
    exact ⟨_, _, exec_skipIfKeyDown_of_in s x hx, exec_skipIfKeyDown_of_in (s.setSt b) x hx, rfl⟩
  | skipIfKeyUp x =>
    have hx := Nat.not_lt.1 hc
    exact ⟨_, _, exec_skipIfKeyUp_of_in s x hx, exec_skipIfKeyUp_of_in (s.setSt b) x hx, rfl⟩
  | storeBcd x =>
    have hidx : s.idx.toNat ≤ 0xFFD := by simp only [faultCondition] at hc; omega
    exact ⟨_, _, exec_storeBcd_of_in s x hidx, exec_storeBcd_of_in (s.setSt b) x hidx, rfl⟩
  | storeRegs x =>
    have hidx := Nat.not_lt.1 hc
    exact ⟨_, _, exec_storeRegs_of_in s x hidx, exec_storeRegs_of_in (s.setSt b) x hidx, rfl⟩
  | loadRegs x =>
    have hidx := Nat.not_lt.1 hc
    refine ⟨_, _, exec_loadRegs_of_in s x hidx, exec_loadRegs_of_in (s.setSt b) x hidx, ?_⟩
    rw [State.setRegsFrom_setSt]
    rfl
  | waitForKey x =>
    cases hk : lowestKey s with
    | none =>
      have hkeys := (lowestKey_eq_none_iff s).1 hk
      exact ⟨_, _, exec_waitForKey_of_none s x hkeys, exec_waitForKey_of_none (s.setSt b) x hkeys, rfl⟩
    | some k => exact ⟨_, _, exec_waitForKey_of_some s x k hk, exec_waitForKey_of_some (s.setSt b) x k hk, rfl⟩
  | _ => exact ⟨_, _, rfl, rfl, rfl⟩

end Sys2Proof.Machine
end

section
/-! PROOF. The family of the keys and timers (R200 to R205). -/

namespace Sys2Proof.Machine

/-! ### The key lines -/

/-- Settles O54: with a line down there is a least one, and of the results of a CYCLE only a waiting core's is Waiting. -/
theorem waitForKeyTakesTheLowestKey : Obligations.WaitForKeyTakesTheLowestKey := by
  intro x
  refine ⟨Laws.RoundTrip.waitForKey x rfl, fun s => ⟨?none, ?some, cycle_waiting_iff s⟩⟩
  case none =>
    intro hkeys
    exact ⟨_, exec_waitForKey_of_none s x hkeys, sameCore_setResult s .waiting, keepsDriver_wait s, rfl⟩
  case some =>
    intro hkeys
    obtain ⟨k, hk⟩ := exists_lowestKey hkeys
    obtain ⟨hlt, hdown, hleast⟩ := (lowestKey_eq_some_iff s k).1 hk
    refine ⟨_, k, exec_waitForKey_of_some s x k hk, hlt, hdown, hleast, ?_, rfl, rfl, keepsAllButRegs_setReg s x _⟩
    rw [State.advance_reg, State.reg_setReg_self, toNat_keyByte hlt]

/-- Settles O52: the value of `Vx` is checked first, and is then the number of the line. -/
theorem skipIfKeyDownTestsTheLine : Obligations.SkipIfKeyDownTestsTheLine := by
  intro x
  refine ⟨Laws.RoundTrip.skipIfKeyDown x rfl, fun s => ⟨?out, ?inRange⟩⟩
  case out =>
    intro h
    exact ⟨_, exec_skipIfKeyDown_of_out s x h, onlyLatchSet_raise s _ _⟩
  case inRange =>
    intro h
    exact ⟨_, exec_skipIfKeyDown_of_in s x h, s.skipIf_pc _, rfl, keepsAllButRegs_skipIf s _⟩

/-- Settles O53: as for O52, on the negation of the line. -/
theorem skipIfKeyUpTestsTheLine : Obligations.SkipIfKeyUpTestsTheLine := by
  intro x
  refine ⟨Laws.RoundTrip.skipIfKeyUp x rfl, fun s => ⟨?out, ?inRange⟩⟩
  case out =>
    intro h
    exact ⟨_, exec_skipIfKeyUp_of_out s x h, onlyLatchSet_raise s _ _⟩
  case inRange =>
    intro h
    exact ⟨_, exec_skipIfKeyUp_of_in s x h, s.skipIf_not_pc _, rfl, keepsAllButRegs_skipIf s _⟩

/-! ### The timers -/

/-- Settles O55: the one write is `DT` to `Vx`. -/
theorem loadDelayReadsTheTimer : Obligations.LoadDelayReadsTheTimer := by
  intro x
  refine ⟨Laws.RoundTrip.loadDelay x rfl, fun s => ?_⟩
  exact ⟨_, exec_loadDelay x s, s.reg_setReg_self x _, rfl, rfl, keepsAllButRegs_setReg s x _⟩

/-- Settles O56: the one write is `Vx` to `DT`. -/
theorem storeDelayWritesTheTimer : Obligations.StoreDelayWritesTheTimer := by
  intro x
  refine ⟨Laws.RoundTrip.storeDelay x rfl, fun s => ?_⟩
  exact ⟨_, exec_storeDelay x s, rfl, rfl, rfl, rfl, keepsAllButTimers_advance s (s.reg x) s.st⟩

/-- Settles O57: the one write is `Vx` to `ST`, and an instruction from a state with another `ST` gives the same state
but for `ST`. -/
theorem storeSoundWritesTheTimer : Obligations.StoreSoundWritesTheTimer := by
  refine ⟨fun x => ⟨Laws.RoundTrip.storeSound x rfl, fun s => ?write⟩, ?unread⟩
  case write =>
    exact ⟨_, exec_storeSound x s, rfl, rfl, rfl, rfl, keepsAllButTimers_advance s s.dt (s.reg x)⟩
  case unread =>
    intro i s t b h
    obtain ⟨u, t', he, he', heq⟩ := exec_setSt i s b
    obtain rfl : u = t := Host.Outcome.next.inj (he.symm.trans h)
    exact ⟨t', he', heq⟩

end Sys2Proof.Machine
end

section
/-! SUPPORT. The fault latch as the driver reads it (R31, R220), the word a fault latches (R226), and what the events do to
the timers (R236, R237). -/

namespace Sys2Proof.Machine

/-! ### The latch as a number (R31, R220) -/

theorem State.faultLatch_of_running {s : State} (h : s.fault = none) : s.faultLatch = 0 := by
  simp only [State.faultLatch, h]

theorem State.faultLatch_of_halted {s : State} {c : FatalCode} (h : s.fault = some c) : s.faultLatch = c.number := by
  simp only [State.faultLatch, h]

/-- The five codes are 1 to 5. -/
theorem FatalCode.number_ne (c : FatalCode) : c.number ≠ 0 ∧ c.number ≠ 6 ∧ c.number ≠ 7 := by
  cases c <;> decide

theorem State.faultLatch_eq_zero_iff (s : State) : s.faultLatch = 0 ↔ s.fault = none := by
  cases h : s.fault with
  | none => exact iff_of_true (State.faultLatch_of_running h) rfl
  | some c => rw [State.faultLatch_of_halted h]; exact iff_of_false c.number_ne.1 nofun

/-- The latch never reads 6 or 7. -/
theorem State.faultLatch_ne_six_seven (s : State) : s.faultLatch ≠ 6 ∧ s.faultLatch ≠ 7 := by
  cases h : s.fault with
  | none => rw [State.faultLatch_of_running h]; decide
  | some c => rw [State.faultLatch_of_halted h]; exact c.number_ne.2

/-! ### The word and the result of a fault (R226, R227) -/

/-- An instruction that can raise a fault is decoded from its encoding alone: `FAULT_WORD` is the word fetched. -/
theorem encode_eq_of_mayRaise {w : Word} {i : Instr} {c : FatalCode} (hd : decode w = .ok i) (hm : mayRaise i = some c) :
    encode i = w :=
  encode_eq_of_decode hd (fun x y hi => by simp [hi, mayRaise] at hm) (fun x y hi => by simp [hi, mayRaise] at hm)

/-- Only an instruction whose fatal condition holds ends with the result `Fatal`. -/
theorem Ending.result_ne_fatal {s t : State} {i : Instr} (h : Ending s i t) (hc : ¬ faultCondition i s)
    (c : FatalCode) (w p : Word) : t.result ≠ some (.fatal c w p) := by
  cases h with
  | fatal c w hcond => exact absurd hcond hc
  | ok hres => simp [hres]
  | waiting x hkeys => nofun
  | unimplemented nnn => nofun

/-! ### The timers (R236, R237) -/

theorem toNat_countDown (b : Byte) : (countDown b).toNat = b.toNat - 1 := by
  unfold countDown
  split
  · next h => simp [h]
  · next h => bv_omega

/-- A CYCLE writes `DT` only at a store-delay (R30). -/
theorem cycle_dt {keys : Keys} {rnd : Byte} {s t : State} (h : cycle keys rnd s = .next t) :
    t.dt = s.dt ∨ ∃ x, AtInstr s (.storeDelay x) := by
  cases hfault : s.fault with
  | some c => rw [cycle_of_halted keys rnd s hfault] at h; cases h; exact .inl rfl
  | none =>
    cases hfetch : s.fetch with
    | none => rw [cycle_of_no_fetch keys rnd s hfault hfetch] at h; cases h; exact .inl rfl
    | some w =>
      cases hd : decode w with
      | error e => rw [cycle_of_reject keys rnd s hfault hfetch hd] at h; cases h; exact .inl rfl
      | ok i =>
        rw [cycle_of_instr keys rnd s hfault hfetch hd] at h
        obtain ⟨-, -, hdt, -⟩ := stateWrittenOnlyByItsInstructions i _ t h
        exact hdt.imp_right fun ⟨x, hi⟩ => ⟨x, hfault, w, hfetch, hi ▸ hd⟩

end Sys2Proof.Machine
end

section
/-! PROOF. The family of the exceptions and the timers' events: faults are precise and enter as the table says (R220, R226,
R227), and `TICK` counts down (R236, R237). -/

namespace Sys2Proof.Machine

/-! ### Faults -/

/-- Settles O20: under its condition an instruction is fault entry, which sets the latch alone; else it completes, and a
completed instruction keeps the latch. -/
theorem faultsArePrecise : Obligations.FaultsArePrecise := by
  intro i s
  by_cases hc : faultCondition i s
  · obtain ⟨c, hm, he⟩ := exec_of_faultCondition hc
    exact ⟨_, he, fun _ => ⟨c, hm, onlyLatchSet_raise s c _⟩, absurd hc⟩
  · obtain ⟨t, he, -, heff⟩ := exec_of_not_faultCondition hc
    exact ⟨t, he, fun h => absurd h hc, fun _ => ⟨heff.keepsLatch, (ending_of_exec he).result_ne_fatal hc⟩⟩

/-- Settles O19: the CYCLE of an instruction is the instruction, which faults precisely; it reads its condition from
state the inputs are no part of, and its encoding is the fetched word. -/
theorem faultTableAndEntry : Obligations.FaultTableAndEntry := by
  intro s keys rnd
  obtain ⟨hne6, hne7⟩ := s.faultLatch_ne_six_seven
  refine ⟨?noFetch, ?instr, rfl, rfl, rfl, rfl, rfl, s.faultLatch_eq_zero_iff, hne6, hne7⟩
  case noFetch =>
    intro hfault hpc
    obtain ⟨t, hcycle, hlatch, -⟩ := fetchBeyondMemoryFaults s keys rnd hfault hpc
    exact ⟨t, hcycle, hlatch⟩
  case instr =>
    intro w i hfault hfetch hd
    have hcond : faultCondition i (s.present keys rnd) ↔ faultCondition i s := faultCondition_congr rfl rfl rfl i
    obtain ⟨t, he, hfaults, hcompletes⟩ := faultsArePrecise i (s.present keys rnd)
    have hcycle : cycle keys rnd s = .next t := (cycle_of_instr keys rnd s hfault hfetch hd).trans he
    constructor
    · intro hc
      obtain ⟨c, hm, hlatch⟩ := hfaults (hcond.2 hc)
      rw [encode_eq_of_mayRaise hd hm] at hlatch
      exact ⟨t, c, hcycle, hm, hlatch, State.faultLatch_of_halted hlatch.1⟩
    · intro hc
      obtain ⟨hkeeps, -⟩ := hcompletes (mt hcond.1 hc)
      exact ⟨t, hcycle, hkeeps, State.faultLatch_of_running (hkeeps.1.trans hfault)⟩

/-! ### The timers -/

/-- Settles O22: the count down of each timer, as a number. -/
theorem tickCountsTimersDown : Obligations.TickCountsTimersDown :=
  fun s => ⟨tick s, rfl, toNat_countDown s.dt, toNat_countDown s.st, rfl⟩

/-- Settles O24: a load leaves `DT`, a CYCLE writes it only at a store-delay, and `TICK` counts it down. -/
theorem delayTimerNeverIncreases : Obligations.DelayTimerNeverIncreases := by
  intro e s t h hreset hstore
  cases e with
  | reset => exact absurd rfl hreset
  | load image => obtain ⟨-, rfl⟩ := loadImage_eq_next h; exact le_rfl
  | cycle keys rnd =>
    rcases cycle_dt h with hdt | ⟨x, hx⟩
    · rw [hdt]
    · exact absurd hx (hstore keys rnd x rfl)
  | tick =>
    cases h
    exact (toNat_countDown s.dt).trans_le (Nat.sub_le _ _)

end Sys2Proof.Machine
end

section
/-! SUPPORT. The load of an image (R263): its answer in each case and the memory it leaves; and the CYCLE of a jump to its
own address (R267). -/

namespace Sys2Proof.Machine

/-! ### The load (R225, R263) -/

/-- The state after a load that fits: the image from `0x200` upward, the window closed. -/
def State.loaded (s : State) (image : List Byte) : State :=
  { s.setMem (Memory.writeBytes s.mem 0x200 image) with awaitingLoad := false }

theorem State.loaded_readByte (s : State) (image : List Byte) (a : Nat) :
    (s.loaded image).readByte a =
      if h : 0x200 ≤ a ∧ a < 0x200 + image.length then image[a - 0x200]'(by omega) else s.readByte a :=
  s.readByte_setMem_writeBytes 0x200 image a

theorem State.loaded_readByte_image (s : State) (image : List Byte) (k : Nat) (h : k < image.length) :
    (s.loaded image).readByte (0x200 + k) = image[k] := by
  rw [State.loaded_readByte, dif_pos (by omega)]
  simp only [Nat.add_sub_cancel_left]

theorem keepsMemOutside_loaded (s : State) (image : List Byte) :
    KeepsMemOutside 0x200 image.length s (s.loaded image) := fun a ha => by
  rw [State.loaded_readByte, dif_neg ha]

theorem loadImage_of_fits {s : State} {image : List Byte} (h : s.awaitingLoad = true) (hlen : image.length ≤ 3584) :
    loadImage image s = .next (s.loaded image) := by
  simp only [loadImage, h, Bool.not_true, Bool.false_eq_true, if_false]
  exact if_neg hlen.not_gt

theorem loadImage_of_too_long {s : State} {image : List Byte} (h : s.awaitingLoad = true) (hlen : image.length > 3584) :
    loadImage image s = .fault .imageTooLarge := by
  simp only [loadImage, h, Bool.not_true, Bool.false_eq_true, if_false]
  exact if_pos hlen

theorem loadImage_of_outside_window {s : State} (image : List Byte) (h : s.awaitingLoad = false) :
    loadImage image s = .refused .loadOutsideWindow := by
  simp only [loadImage, h, Bool.not_false, if_true]

/-! ### The jump to its own address (R267) -/

/-- A `pc` that a fetch accepts is the absolute address of its low 12 bits (R93). -/
theorem absAddr_setWidth {w : Word} (h : w.toNat ≤ 0xFFF) : absAddr (w.setWidth 12) = w := by
  apply BitVec.eq_of_toNat_eq
  rw [toNat_absAddr, BitVec.toNat_setWidth, Nat.mod_eq_of_lt (by omega)]

/-- The word of a jump is `0x1000` more than its target (R95). -/
theorem encode_jump (nnn : Addr) : encode (.jump nnn) = 0x1000 + absAddr nnn := by
  apply BitVec.eq_of_toNat_eq
  have happend : (encode (.jump nnn)).toNat = 1 * 2 ^ 12 + nnn.toNat := toNat_append_eq 0x1#4 nnn
  have := nnn.isLt
  rw [happend, BitVec.toNat_add, toNat_absAddr]
  simp only [BitVec.reduceToNat]
  omega

/-- The word that the spec's condition names is a jump to the address it stands at. -/
theorem ProgramEnded.atInstr {s : State} (h : ProgramEnded s) :
    ∃ nnn, absAddr nnn = s.pc ∧ AtInstr s (.jump nnn) := by
  obtain ⟨hfault, hfetch⟩ := h
  obtain ⟨hpc, -⟩ := (s.fetch_eq_some_iff _).1 hfetch
  have htarget : absAddr (s.pc.setWidth 12) = s.pc := absAddr_setWidth (by omega)
  have hword : encode (.jump (s.pc.setWidth 12)) = 0x1000 + s.pc := by rw [encode_jump, htarget]
  exact ⟨_, htarget, hfault, _, hfetch, hword ▸ decode_encode rfl⟩

/-- A CYCLE of a program that has ended jumps to where it is. -/
theorem cycle_of_programEnded {s : State} (h : ProgramEnded s) (keys : Keys) (rnd : Byte) :
    cycle keys rnd s = .next ((s.present keys rnd).goTo s.pc) := by
  obtain ⟨nnn, htarget, hfault, w, hfetch, hd⟩ := h.atInstr
  rw [cycle_of_instr keys rnd s hfault hfetch hd, exec_jump, htarget]

end Sys2Proof.Machine
end

section
/-! PROOF. The family of the reset and the hazards: the load of an image (R225, R263), and the ends of a run (R267). -/

namespace Sys2Proof.Machine

/-! ### The load -/

/-- Settles O23: the window and the length tell the three answers apart; the state after a load that fits reads the image
at its place. -/
theorem loadPlacesTheImage : Obligations.LoadPlacesTheImage := fun image s =>
  ⟨fun h hlen => ⟨s.loaded image, loadImage_of_fits h hlen, s.loaded_readByte_image image,
      keepsMemOutside_loaded s image, rfl⟩,
    loadImage_of_too_long, loadImage_of_outside_window image⟩

/-! ### The end of a run -/

/-- Settles O58: in each of the four ways the CYCLE writes its inputs and its result alone, for the jump goes to where
`pc` is. -/
theorem fourWaysOfNoProgress : Obligations.FourWaysOfNoProgress := by
  rintro s keys rnd (hhalted | ⟨hfault, w, hfetch, hw⟩ | hwait | hended)
  · obtain ⟨c, hc⟩ := Option.ne_none_iff_exists'.1 hhalted
    exact ⟨_, cycle_of_halted keys rnd s hc, sameCore_present_setResult s keys rnd _⟩
  · exact ⟨_, cycle_of_noOperation keys rnd hfault hfetch hw, sameCore_present_setResult s keys rnd _⟩
  · exact ⟨_, cycle_of_waiting hwait rnd, sameCore_present_setResult s keys rnd _⟩
  · exact ⟨_, cycle_of_programEnded hended keys rnd, sameCore_goTo_self (s := s.present keys rnd) rfl⟩

end Sys2Proof.Machine
end
